-- ==== Sys2Proof/Word.lean ====
section
/-! DEFINITION. The word types of TF-CORE (spec/00_scope.md R2, spec/20_memory.md R35). -/

namespace Sys2Proof

/-- `u64`: every word of key, tweak, block, sub-key and working state, and every host register (R2, R11).
Addition and subtraction wrap modulo 2^64, as `BitVec` arithmetic does. -/
abbrev Word := BitVec 64

/-- `u8`: one byte of host memory (R35). -/
abbrev Byte := BitVec 8

/-- A host byte address, ADDR_W = 64 bits (R33, R35). -/
abbrev Addr := BitVec 64

end Sys2Proof
end

