-- ==== Sys2Proof/Syntax.lean ====
section
/-! DEFINITION. The commands of TF-CORE, one constructor per row of spec/opcode_table.json (spec/30_encoding.md
R52), with the operands R51 assembles from the command word. -/

namespace Sys2Proof

/-- A command. `bits` and `keylen` are unsigned 16-bit operands, `rounds` a signed 32-bit one (R51); their ranges
are checked in Sys2Proof/WellFormed.lean. All other operands of a command come from registers. -/
inductive Instr where
  /-- CONFIG, `new(blockSizeBits)` (R60). -/
  | config (bits : Nat)
  /-- CONFIGR, `new(blockSizeBits, rounds)` (R61). -/
  | configr (bits : Nat) (rounds : Int)
  /-- INIT, `init(key, tweak)` (R63). -/
  | init (keylen : Nat)
  /-- ENCB, `encryptBlock(plaintext)` (R90). -/
  | encb
  /-- DECB, `decryptBlock(ciphertext)` (R91). -/
  | decb
  /-- ENC, `encrypt(bytes)` (R104). -/
  | enc
  /-- DEC, `decrypt(bytes)` (R110). -/
  | dec
  deriving DecidableEq, Repr

end Sys2Proof
end

