-- ==== Sys2Proof/WellFormed.lean ====
section
/-! DEFINITION. Which commands can be written down: the operand ranges of spec/30_encoding.md R51 and R56 ("BITS and
KEYLEN must be 0 to 65535; ROUNDS must be −2^31 to 2^31 − 1; an assembler refuses other values"). A legal encoding
with an illegal block size, round count or key length is well formed and fails when it runs (R55). -/

namespace Sys2Proof

/-- Why a command has no encoding. -/
inductive IllFormed where
  | blockSizeRange
  | roundCountRange
  | keyLengthRange
  deriving DecidableEq, Repr

/-- The check: the first operand out of its range (R56), if any. -/
def Instr.illFormed : Instr → Option IllFormed
  | .config bits => if bits < 2 ^ 16 then none else some .blockSizeRange
  | .configr bits rounds =>
    if ¬ bits < 2 ^ 16 then some .blockSizeRange
    else if -2 ^ 31 ≤ rounds ∧ rounds < 2 ^ 31 then none
    else some .roundCountRange
  | .init keylen => if keylen < 2 ^ 16 then none else some .keyLengthRange
  | .encb => none
  | .decb => none
  | .enc => none
  | .dec => none

/-- A command every operand of which is in its range (R56). -/
abbrev Instr.WellFormed (i : Instr) : Prop := i.illFormed = none

end Sys2Proof
end

