-- ==== Sys2Proof/Decode.lean ====
section
/-! DEFINITION. The 64-bit command word (spec/30_encoding.md R50 to R54): its decoder, total on every word, and after
it the encoder of R52 and R56. -/

namespace Sys2Proof

/-- Why a word is ILLEGAL, one name for each part of R54's list. All of them execute alike (R123). -/
inductive IllegalWord where
  /-- Opcode 0x00, or 0x07 to 0xFF. -/
  | unassignedOpcode
  /-- Opcode 0x01 or 0x02 with a non-zero RSV field. -/
  | reservedBits
  /-- Opcode 0x01 with RX = 0 and A32 ≠ 0. -/
  | configArgument
  /-- Opcode 0x02 with RX = 1 or A32 ≠ 0. -/
  | initArgument
  /-- Opcodes 0x03 to 0x06 with any of bits [63:8] non-zero. -/
  | blockArgument
  deriving DecidableEq, Repr

/-- What a command word means. -/
inductive Decoded where
  | instr (i : Instr)
  | illegal (why : IllegalWord)
  deriving DecidableEq, Repr

/-- Field OP, bits [7:0] (R50). -/
def fieldOp (v : Word) : BitVec 8 := v.extractLsb' 0 8
/-- Field RX, bit [8] (R50). -/
def fieldRx (v : Word) : BitVec 1 := v.extractLsb' 8 1
/-- Field RSV, bits [15:9] (R50). -/
def fieldRsv (v : Word) : BitVec 7 := v.extractLsb' 9 7
/-- Field A16, bits [31:16] (R50). -/
def fieldA16 (v : Word) : BitVec 16 := v.extractLsb' 16 16
/-- Field A32, bits [63:32] (R50). -/
def fieldA32 (v : Word) : BitVec 32 := v.extractLsb' 32 32
/-- Bits [63:8], all zero in a command without operands (R53). -/
def fieldRest (v : Word) : BitVec 56 := v.extractLsb' 8 56

/-- The decoding of opcode 0x01 (R53). -/
def decodeConfig (v : Word) : Decoded :=
  if fieldRsv v ≠ 0 then .illegal .reservedBits
  else if fieldRx v = 1 then .instr (.configr (fieldA16 v).toNat (fieldA32 v).toInt)
  else if fieldA32 v = 0 then .instr (.config (fieldA16 v).toNat)
  else .illegal .configArgument

/-- The decoding of opcode 0x02 (R53). -/
def decodeInit (v : Word) : Decoded :=
  if fieldRsv v ≠ 0 then .illegal .reservedBits
  else if fieldRx v = 0 ∧ fieldA32 v = 0 then .instr (.init (fieldA16 v).toNat)
  else .illegal .initArgument

/-- The decoding of the opcodes 0x03 to 0x06, which carry no operand (R53). -/
def decodePlain (i : Instr) (v : Word) : Decoded :=
  if fieldRest v = 0 then .instr i else .illegal .blockArgument

/-- `Decode(v)` (R53): total on every 64-bit word; it reads no state. -/
def decode (v : Word) : Decoded :=
  if fieldOp v = 0x01 then decodeConfig v
  else if fieldOp v = 0x02 then decodeInit v
  else if fieldOp v = 0x03 then decodePlain .encb v
  else if fieldOp v = 0x04 then decodePlain .decb v
  else if fieldOp v = 0x05 then decodePlain .enc v
  else if fieldOp v = 0x06 then decodePlain .dec v
  else .illegal .unassignedOpcode

/-- The command word of a well-formed command, from the tables of R52 and R56. -/
def encode : Instr → Word
  | .config bits => 0x01 ||| (BitVec.ofNat 64 bits <<< 16)
  | .configr bits rounds =>
    0x101 ||| (BitVec.ofNat 64 bits <<< 16) ||| ((BitVec.ofInt 32 rounds).zeroExtend 64 <<< 32)
  | .init keylen => 0x02 ||| (BitVec.ofNat 64 keylen <<< 16)
  | .encb => 0x03
  | .decb => 0x04
  | .enc => 0x05
  | .dec => 0x06

/-- The instruction the decoder reads from the word whose low `nbits` bits are those of `w`, the bits above them
zero: a command is one 64-bit word (R50), so there is no byte layout to undo. -/
def decodeTableWord (nbits w : Nat) : Option Instr :=
  match decode (BitVec.ofNat 64 (w % 2 ^ nbits)) with
  | .instr i => some i
  | .illegal _ => none

end Sys2Proof
end

