-- ==== Sys2Proof/Config.lean ====
section
/-! DEFINITION. What is fixed for one TF-CORE and its platform: the parameters the spec gives as configuration
arguments (spec/00_scope.md R6), as plain data, and the free values of the model (spec/93_implementation_defined.md
U3). The decided default values stand in Sys2Proof/Machine/Tables.lean. -/

namespace Sys2Proof

/-- The word count NW of a block, `st.nw ∈ {0, 4, 8, 16}` (R3, R24); `unset` is the 0 of an unconfigured core.
R73 suggests the enumeration. -/
inductive BlockWidth where
  | unset
  | words4
  | words8
  | words16
  deriving DecidableEq, Repr

/-- Parameter BYTE_ORDER (R6, R37). -/
inductive ByteOrder where
  | little
  | big
  deriving DecidableEq, Repr

/-- One term SUBKEY_LAYOUT adds to a word of sub-key s (R79, R84): a tweak-ring word, its index "a function of s" as
the table of its values read cyclically, `indices[s mod length]`, or the counter s. The table is plain data, and a sub-key
index is below 2^29 (R79), so a table of that length is any function of s there is; a period of three is enough for
R79 (log 8). -/
inductive SubkeyTerm where
  | tweak (indices : List (Fin 3))
  | counter
  deriving DecidableEq, Repr

/-- Parameter SUBKEY_LAYOUT (R84): the terms added to each of the words n−3, n−2 and n−1, any number to a word. -/
structure SubkeyLayout where
  atN3 : List SubkeyTerm
  atN2 : List SubkeyTerm
  atN1 : List SubkeyTerm
  deriving DecidableEq, Repr

/-- A range of host addresses `[base, base + size)`. -/
structure Region where
  base : Addr
  size : Nat
  deriving DecidableEq, Repr

/-- The configuration arguments of R6, fixed for the machine. `devices` lists the host addresses that are not
ordinary memory (R45), the platform's matter (DESIGN CHOICE, log 6). A rotation amount is a count below 64 (R72). -/
structure CoreConfig where
  perm4 : Vector (Fin 4) 4
  perm8 : Vector (Fin 8) 8
  perm16 : Vector (Fin 16) 16
  rot4 : Vector (Vector (Fin 64) 2) 8
  rot8 : Vector (Vector (Fin 64) 4) 8
  rot16 : Vector (Vector (Fin 64) 8) 8
  layout : SubkeyLayout
  byteOrder : ByteOrder
  coreBase : Addr
  devices : List Region
  deriving DecidableEq, Repr

/-- Free value (U3, R111; log 7): the bytes a DEC leaves in its destination when it raises NoTerminatorFound.
It has no body: no proof can know a byte of it. -/
opaque Config.freeByte : Nat → Byte

end Sys2Proof
end

