-- ==== Sys2Proof/Machine/Tables.lean ====
section
/-! DEFINITION. The block sizes and the constant tables (spec/00_scope.md R3, R5; spec/41_block_transform.md R70 to
R73; spec/40_config_init.md R68), with the decided default of every parameter of R6. -/

namespace Sys2Proof

namespace BlockWidth

/-- NW, the number of 64-bit words of a block (R3). -/
def words : BlockWidth → Nat
  | unset => 0
  | words4 => 4
  | words8 => 8
  | words16 => 16

/-- NW/2, the number of word pairs MIX works on (R77). -/
def pairs : BlockWidth → Nat
  | unset => 0
  | words4 => 2
  | words8 => 4
  | words16 => 8

/-- B = 8·NW, the block size in bytes (R3). -/
def bytes (w : BlockWidth) : Nat := 8 * w.words

theorem words_le (w : BlockWidth) : w.words ≤ 16 := by cases w <;> decide

theorem words_eq_pairs (w : BlockWidth) : w.words = 2 * w.pairs := by cases w <;> rfl

theorem half_lt {w : BlockWidth} {i : Nat} (h : i < w.words) : i / 2 < w.pairs := by
  have := w.words_eq_pairs; omega

theorem even_lt {w : BlockWidth} {j : Nat} (h : j < w.pairs) : 2 * j < w.words := by
  have := w.words_eq_pairs; omega

theorem odd_lt {w : BlockWidth} {j : Nat} (h : j < w.pairs) : 2 * j + 1 < w.words := by
  have := w.words_eq_pairs; omega

/-- `SelectNW(bits)` (spec/40_config_init.md, before R60): `none` is InvalidBlockSize. -/
def ofBits (bits : Nat) : Option BlockWidth :=
  if bits = 256 then some words4
  else if bits = 512 then some words8
  else if bits = 1024 then some words16
  else none

/-- `DefaultNR(n)` (R3; spec/40_config_init.md, before R60). -/
def defaultRounds : BlockWidth → BitVec 32
  | unset => 0
  | words4 => 72
  | words8 => 72
  | words16 => 80

end BlockWidth

namespace Machine

/-- C240, the key-schedule constant (R5). -/
def c240 : Word := 0x1BD11BDAA9FC1A22

/-- PERM_TABLE[4], the default of R70. -/
def defaultPerm4 : Vector (Fin 4) 4 := #v[0, 3, 2, 1]

/-- PERM_TABLE[8], the default of R70. -/
def defaultPerm8 : Vector (Fin 8) 8 := #v[2, 1, 4, 7, 6, 5, 0, 3]

/-- PERM_TABLE[16], the default of R70. -/
def defaultPerm16 : Vector (Fin 16) 16 := #v[0, 9, 2, 13, 6, 11, 4, 15, 10, 7, 12, 3, 14, 5, 8, 1]

/-- ROT_TABLE[4], the default of R72. -/
def defaultRot4 : Vector (Vector (Fin 64) 2) 8 :=
  #v[#v[14, 16], #v[52, 57], #v[23, 40], #v[5, 37], #v[25, 33], #v[46, 12], #v[58, 22], #v[32, 32]]

/-- ROT_TABLE[8], the default of R72. -/
def defaultRot8 : Vector (Vector (Fin 64) 4) 8 :=
  #v[#v[46, 36, 19, 37], #v[33, 27, 14, 42], #v[17, 49, 36, 39], #v[44, 9, 54, 56],
     #v[39, 30, 34, 24], #v[13, 50, 10, 17], #v[25, 29, 39, 43], #v[8, 35, 56, 22]]

/-- ROT_TABLE[16], the default of R72. -/
def defaultRot16 : Vector (Vector (Fin 64) 8) 8 :=
  #v[#v[24, 13, 8, 47, 8, 17, 22, 37], #v[38, 19, 10, 55, 49, 18, 23, 52],
     #v[33, 4, 51, 13, 34, 41, 59, 17], #v[5, 20, 48, 41, 47, 28, 16, 25],
     #v[41, 9, 37, 31, 12, 47, 44, 30], #v[16, 34, 56, 51, 4, 53, 42, 41],
     #v[31, 44, 47, 46, 19, 42, 44, 25], #v[9, 48, 35, 52, 23, 31, 37, 20]]

/-- SUBKEY_LAYOUT, the default of R79: tweak word s into word n−3, tweak word s+1 into n−2, the counter into n−1. -/
def defaultLayout : SubkeyLayout :=
  { atN3 := [.tweak [0, 1, 2]], atN2 := [.tweak [1, 2, 0]], atN1 := [.counter] }

/-- The configuration of State.reset: the decided defaults of R6. CORE_BASE is OPEN (log 2) and the platform's
device regions are not the spec's (log 6): DESIGN CHOICE values. -/
def defaultConfig : CoreConfig where
  perm4 := defaultPerm4
  perm8 := defaultPerm8
  perm16 := defaultPerm16
  rot4 := defaultRot4
  rot8 := defaultRot8
  rot16 := defaultRot16
  layout := defaultLayout
  byteOrder := .little
  coreBase := 0x00000000F0000000
  devices := []

end Machine

/-- `PERM_TABLE[n]` for the width in force (R68, R70). -/
def CoreConfig.perm (c : CoreConfig) : (w : BlockWidth) → Vector (Fin w.words) w.words
  | .unset => #v[]
  | .words4 => c.perm4
  | .words8 => c.perm8
  | .words16 => c.perm16

/-- The index `j` with `p[j] = i` (R71), searched from 0; `i` itself where there is none, which a permutation
excludes. -/
def inverseAt {n : Nat} (p : Vector (Fin n) n) (i : Fin n) : Fin n :=
  ((List.finRange n).find? fun j => p[j] = i).getD i

/-- `PERM_INV_TABLE[n]`, computed from PERM_TABLE as R71 asks, "so the two cannot disagree". -/
def CoreConfig.permInv (c : CoreConfig) (w : BlockWidth) : Vector (Fin w.words) w.words :=
  Vector.ofFn fun i => inverseAt (c.perm w) i

/-- `ROT_TABLE[n]` for the width in force: 8 rows of n/2 columns (R68, R72). -/
def CoreConfig.rot (c : CoreConfig) : (w : BlockWidth) → Vector (Vector (Fin 64) w.pairs) 8
  | .unset => Vector.replicate 8 #v[]
  | .words4 => c.rot4
  | .words8 => c.rot8
  | .words16 => c.rot16

end Sys2Proof
end

