-- ==== Sys2Proof/Machine/State.lean ====
section
/-! DEFINITION. The state of TF-CORE (spec/10_state.md), of host memory (spec/20_memory.md R35) and of the host's
side of the interface, all plain data; the reasons a step can stop; the state after reset (R34, R140). -/

namespace Sys2Proof.Machine

/-- The error codes of R120, in code order; the reserved codes 12 to 15 have no name. -/
inductive ErrorCode where
  | ok
  | invalidBlockSize
  | invalidRoundCount
  | invalidKeySize
  | noTerminatorFound
  | illegalCommand
  | notConfigured
  | notInitialized
  | invalidCiphertextLength
  | addressRange
  | bufferOverlap
  | destinationTooSmall
  deriving DecidableEq, Repr

/-- The width of a host access to the register block; only 64-bit accesses are in the interface (R11). -/
inductive AccessWidth where
  | b8
  | b16
  | b32
  | b64
  deriving DecidableEq, Repr

/-- One access of the host (R10, R56), or the platform's reset (R140). -/
inductive HostOp where
  /-- A write of `v` at host address `addr` in the register block (`wr NAME, imm64`). -/
  | regWrite (addr : Addr) (width : AccessWidth) (v : Word)
  /-- A read at host address `addr` in the register block (`rd NAME`). -/
  | regRead (addr : Addr) (width : AccessWidth)
  /-- The host stores one byte of host memory (`mem ADDR, b0 b1 ...` is one of these per byte). -/
  | memStore (addr : Addr) (b : Byte)
  /-- The host loads one byte of host memory (R48). -/
  | memLoad (addr : Addr)
  /-- The platform asserts reset, between commands (R140). -/
  | reset
  deriving DecidableEq, Repr

/-- Host memory (R35) as a list of address and byte, in the canonical form `Memory.wf` of
Sys2Proof/Machine/Ops.lean. -/
abbrev Memory := List Host.Cell

/-- Everything the spec gives the machine. Each field of the first two groups cites its rule of spec/10_state.md. -/
structure State where
  /-- REG[SRC_ADDR] (R18). -/
  srcAddr : Word
  /-- REG[SRC_LEN] (R18). -/
  srcLen : Word
  /-- REG[DST_ADDR] (R18). -/
  dstAddr : Word
  /-- REG[DST_CAP] (R18). -/
  dstCap : Word
  /-- REG[DST_LEN] (R19). -/
  dstLen : Word
  /-- REG[KEY_IN][0..15] (R20). -/
  keyIn : Vector Word 16
  /-- REG[TWEAK_IN][0..1] (R21). -/
  tweakIn : Vector Word 2
  /-- REG[BLK_IN][0..15] (R22). -/
  blkIn : Vector Word 16
  /-- REG[BLK_OUT][0..15] (R23). -/
  blkOut : Vector Word 16
  /-- st.cfg_valid (R24). -/
  cfgValid : Bool
  /-- st.nw (R24). -/
  nw : BlockWidth
  /-- st.nr (R24). -/
  nr : BitVec 32
  /-- st.key_valid (R25). -/
  keyValid : Bool
  /-- st.K[0..16] (R27). -/
  keyRing : Vector Word 17
  /-- st.T[0..2] (R28). -/
  tweakRing : Vector Word 3
  /-- st.err (R29). -/
  err : BitVec 4
  /-- Host memory (R35). -/
  mem : Memory
  /-- The configuration arguments of R6; no step writes them (log 1). -/
  cfg : CoreConfig
  /-- The model's own: the host's accesses still to come, oldest first (log 5). -/
  hostOps : List HostOp
  /-- The model's own: the values the host's reads returned, oldest first (log 5). -/
  reads : List Word
  /-- The model's own: how many free bytes have been drawn (log 7). -/
  freeIdx : Nat
  deriving DecidableEq, Repr

/-- TF-CORE has no faults: an error is an ordinary outcome of a command, a next state with a code in st.err (R126,
R134), so the model has no fault to raise. -/
inductive Fault where
  deriving DecidableEq, Repr

/-- The host accesses and buffers that R134 says "have no meaning and are refused". -/
inductive Refusal where
  /-- Raised by `exec` for an instruction that has no meaning yet; safe. -/
  | notModelled (mnemonic : String)
  /-- Raised by a host access to the register block that is not an aligned 64-bit access inside it (R11, U4); safe:
  the spec refuses it. -/
  | registerAccess
  /-- Raised by ENC and DEC when every check passes and the source or destination region is not ordinary memory (R45,
  U5); safe: the spec refuses it. -/
  | bufferInDevice
  /-- Raised by a host byte load or store at an address that is not ordinary memory: a device the spec does not
  describe, or the register block, which takes no byte access (R11, R45); safe. -/
  | hostDeviceAccess
  deriving DecidableEq, Repr

/-- The state after reset (R34, R140): every register 0, nothing configured, no key. The spec leaves st.K and st.T
unspecified: 0 is a DESIGN CHOICE (log 3). Memory lists nothing (log 4), no host access is queued (log 5). -/
def State.reset : State where
  srcAddr := 0
  srcLen := 0
  dstAddr := 0
  dstCap := 0
  dstLen := 0
  keyIn := Vector.replicate 16 0
  tweakIn := Vector.replicate 2 0
  blkIn := Vector.replicate 16 0
  blkOut := Vector.replicate 16 0
  cfgValid := false
  nw := .unset
  nr := 0
  keyValid := false
  keyRing := Vector.replicate 17 0
  tweakRing := Vector.replicate 3 0
  err := 0
  mem := []
  cfg := defaultConfig
  hostOps := []
  reads := []
  freeIdx := 0

end Sys2Proof.Machine
end

