-- ==== Sys2Proof/Machine/Ops.lean ====
section
/-! DEFINITION. The shared operations over memory and registers: host memory (spec/20_memory.md R35), byte packing
(R37, R38), region checks (R41, R42, R45), raising an error (spec/60_exceptions.md R122), and the state updates the
command rules name. -/

namespace Sys2Proof.Machine

/-! ### Host memory -/

/-- What a byte that nothing has written reads as (log 4). The spec gives host memory no initial contents. -/
def unlistedByte : Byte := 0

/-- `MemRead(a, 1)` (R35), total on every address. -/
def Memory.read : Memory → Nat → Byte
  | [], _ => unlistedByte
  | (k, b) :: rest, a => if k = a then b else Memory.read rest a

/-- `MemWrite(a, 1, v)` (R35), keeping the canonical form: the entry goes where its address belongs, and writing the
unlisted byte removes it. -/
def Memory.write : Memory → Nat → Byte → Memory
  | [], a, v => if v = unlistedByte then [] else [(a, v)]
  | (k, b) :: rest, a, v =>
    if a < k then (if v = unlistedByte then (k, b) :: rest else (a, v) :: (k, b) :: rest)
    else if a = k then (if v = unlistedByte then rest else (a, v) :: rest)
    else (k, b) :: Memory.write rest a v

/-- The canonical form: addresses strictly rising, none outside the 2^64 bytes of host memory (R33), and no entry
equal to what an unlisted address reads as. -/
abbrev Memory.wf (m : Memory) : Prop :=
  m.Pairwise (fun x y => x.1 < y.1) ∧ ∀ c ∈ m, c.1 < 2 ^ 64 ∧ c.2 ≠ unlistedByte

/-- `[MemRead(a + k, 1) for k in 0 .. n-1]`, ascending (R18, R43). -/
def readBytes (m : Memory) (a n : Nat) : List Byte :=
  (List.range n).map fun k => m.read (a + k)

/-- `MemWrite(a + k, 1, s[k])` for every byte of `s`, ascending (R43). -/
def writeBytes (m : Memory) (a : Nat) : List Byte → Memory
  | [] => m
  | b :: s => writeBytes (m.write a b) (a + 1) s

/-! ### Bytes and words -/

/-- The eight bytes of a word, byte j being bits [8j+7:8j] (R38). -/
def bytesLittle (w : Word) : List Byte :=
  (List.range 8).map fun j => w.extractLsb' (8 * j) 8

/-- The eight bytes of a word in BYTE_ORDER (R37, R38). -/
def wordBytes (o : ByteOrder) (w : Word) : List Byte :=
  match o with
  | .little => bytesLittle w
  | .big => (bytesLittle w).reverse

/-- The word whose byte j is `s[j]`: `s[0] | (s[1] << 8) | … | (s[7] << 56)` (R37). -/
def packLittle (s : List Byte) : Word :=
  (s.getD 0 0).zeroExtend 64
    ||| ((s.getD 1 0).zeroExtend 64 <<< 8) ||| ((s.getD 2 0).zeroExtend 64 <<< 16)
    ||| ((s.getD 3 0).zeroExtend 64 <<< 24) ||| ((s.getD 4 0).zeroExtend 64 <<< 32)
    ||| ((s.getD 5 0).zeroExtend 64 <<< 40) ||| ((s.getD 6 0).zeroExtend 64 <<< 48)
    ||| ((s.getD 7 0).zeroExtend 64 <<< 56)

/-- One word from its eight bytes in BYTE_ORDER (R37). -/
def packWord (o : ByteOrder) (s : List Byte) : Word :=
  match o with
  | .little => packLittle s
  | .big => packLittle s.reverse

/-- `LoadWords(s, n)`: word i is packed from the bytes `s[8i : 8i + 8]` (R37). -/
def loadWords (o : ByteOrder) (s : List Byte) (n : Nat) : Vector Word n :=
  Vector.ofFn fun i => packWord o ((s.drop (8 * i)).take 8)

/-- `StoreWords(w, n)`, the inverse of LoadWords (R38). -/
def storeWords {n : Nat} (o : ByteOrder) (w : Vector Word n) : List Byte :=
  w.toList.flatMap (wordBytes o)

/-! ### Regions -/

/-- The region `[a, a + n)` fits below 2^64, computed without bound (R41). -/
abbrev Fits (a n : Nat) : Prop := a + n ≤ 2 ^ 64

/-- The regions `[sa, sa + sn)` and `[da, da + dn)` overlap (R42). -/
abbrev Overlap (sa sn da dn : Nat) : Prop := 0 < sn ∧ 0 < dn ∧ sa < da + dn ∧ da < sa + sn

/-- The 4096 bytes of the register block, as host addresses (R11). -/
def registerBlock (c : CoreConfig) : Region := { base := c.coreBase, size := 4096 }

/-- Some byte of `[a, a + n)` is not ordinary memory (R45): it lies in the register block or in another device. -/
def touchesDevice (c : CoreConfig) (a n : Nat) : Bool :=
  (registerBlock c :: c.devices).any fun r => decide (Overlap a n r.base.toNat r.size)

/-! ### Errors -/

/-- The value of REG[STATUS].ERR for each error (R120). -/
def errorBits : ErrorCode → BitVec 4
  | .ok => 0
  | .invalidBlockSize => 1
  | .invalidRoundCount => 2
  | .invalidKeySize => 3
  | .noTerminatorFound => 4
  | .illegalCommand => 5
  | .notConfigured => 6
  | .notInitialized => 7
  | .invalidCiphertextLength => 8
  | .addressRange => 9
  | .bufferOverlap => 10
  | .destinationTooSmall => 11

/-- `raise Error(code)` (R122): st.err gets the code; `bytesCommand` says that the command is ENC or DEC, and then
DST_LEN gets 0. Nothing is saved, masked or jumped to (R126). There is no return from an error: the next command runs
as usual and overwrites st.err (R127). -/
def raiseError (bytesCommand : Bool) (code : ErrorCode) (s : State) : State :=
  { s with err := errorBits code, dstLen := if bytesCommand then 0 else s.dstLen }

/-! ### The state updates of the command rules -/

/-- `ApplyConfig(n, r)` (R62). -/
def applyConfig (n : BlockWidth) (r : BitVec 32) (s : State) : State :=
  { s with cfgValid := true, nw := n, nr := r, keyValid := false, err := 0 }

/-- The last four lines of INIT (R63): the rings are loaded and the key becomes valid. -/
def loadKey (k : Vector Word 17) (t : Vector Word 3) (s : State) : State :=
  { s with keyRing := k, tweakRing := t, keyValid := true, err := 0 }

/-- The last two lines of ENCB and DECB (R90, R91): the result goes to BLK_OUT. -/
def putBlock (out : Vector Word 16) (s : State) : State :=
  { s with blkOut := out, err := 0 }

/-- The end of a successful ENC or DEC (R104, R110): memory as written, DST_LEN the count of output bytes. -/
def finishBytes (m : Memory) (len : Nat) (s : State) : State :=
  { s with mem := m, dstLen := BitVec.ofNat 64 len, err := 0 }

/-- `n` free bytes, the `i`-th and following ones (U3). -/
def freeBytes (i n : Nat) : List Byte :=
  (List.range n).map fun k => Config.freeByte (i + k)

/-- NoTerminatorFound (R111): the error of R122, and the `n` bytes from `da` on hold unspecified values, each drawn
for itself; the counter moves past the values drawn. -/
def failDecode (da n : Nat) (s : State) : State :=
  { raiseError true .noTerminatorFound s with
    mem := writeBytes s.mem da (freeBytes s.freeIdx n), freeIdx := s.freeIdx + n }

/-- A host byte store (R35). -/
def storeByte (a : Addr) (b : Byte) (s : State) : State :=
  { s with mem := s.mem.write a.toNat b }

/-- A value returned to the host by a read (log 5). -/
def logRead (v : Word) (s : State) : State :=
  { s with reads := s.reads ++ [v] }

/-- Reset (R140): every piece of TF-CORE's state at its value of R34. Host memory is no part of TF-CORE and stays; so
do the configuration, the host's side and the count of free bytes. -/
def resetCore (s : State) : State :=
  { State.reset with
    mem := s.mem, cfg := s.cfg, hostOps := s.hostOps, reads := s.reads, freeIdx := s.freeIdx }

end Sys2Proof.Machine
end

