-- ==== Sys2Proof/Machine/Flags.lean ====
section
/-! DEFINITION. REG[STATUS], the only flags of TF-CORE (spec/10_state.md R15 to R17). -/

namespace Sys2Proof.Machine

/-- A one-bit field as a word. -/
def bitWord (b : Bool) : Word := if b then 1 else 0

/-- REG[STATUS] as a host read returns it (R15): computed from the state it mirrors, so it always equals it (R17). -/
def statusWord (s : State) : Word :=
  s.err.zeroExtend 64
    ||| (bitWord s.cfgValid <<< 4)
    ||| (bitWord s.keyValid <<< 5)
    ||| (BitVec.ofNat 64 s.nw.words <<< 8)
    ||| (s.nr.zeroExtend 64 <<< 32)

end Sys2Proof.Machine
end

