-- ==== Sys2Proof/Machine/Operands.lean ====
section
/-! DEFINITION. The operands of a command and the host's view of the register block (spec/10_state.md R11 to R23). -/

namespace Sys2Proof.Machine

/-- A block, or a key, of the width in force. -/
abbrev Block (w : BlockWidth) := Vector Word w.words

/-- The first NW of sixteen registers: KEY_IN[0..n−1] (R20) or BLK_IN[0..n−1] (R22). -/
def firstWords (w : BlockWidth) (v : Vector Word 16) : Block w :=
  Vector.ofFn fun i => v[i.val]'(Nat.lt_of_lt_of_le i.isLt w.words_le)

/-- BLK_OUT after a block is written to its first NW words; the others keep their values (R23). -/
def withBlock {w : BlockWidth} (b : Block w) (old : Vector Word 16) : Vector Word 16 :=
  Vector.ofFn fun i => if h : i.val < w.words then b[i.val] else old[i.val]

/-! ### The register map -/

/-- The registers of the map of R12. -/
inductive HostReg where
  | cmd
  | status
  | srcAddr
  | srcLen
  | dstAddr
  | dstCap
  | dstLen
  | keyIn (i : Fin 16)
  | tweakIn (i : Fin 2)
  | blkIn (i : Fin 16)
  | blkOut (i : Fin 16)
  | reserved
  deriving DecidableEq, Repr

/-- The register at an offset (R12), for offsets that are multiples of 8 below 4096. -/
def hostReg (off : Nat) : HostReg :=
  if off = 0x000 then .cmd
  else if off = 0x008 then .status
  else if off = 0x010 then .srcAddr
  else if off = 0x018 then .srcLen
  else if off = 0x020 then .dstAddr
  else if off = 0x028 then .dstCap
  else if off = 0x030 then .dstLen
  else if h : 0x040 ≤ off ∧ off < 0x0C0 then .keyIn ⟨(off - 0x040) / 8, by omega⟩
  else if h : 0x0C0 ≤ off ∧ off < 0x0D0 then .tweakIn ⟨(off - 0x0C0) / 8, by omega⟩
  else if h : 0x100 ≤ off ∧ off < 0x180 then .blkIn ⟨(off - 0x100) / 8, by omega⟩
  else if h : 0x180 ≤ off ∧ off < 0x200 then .blkOut ⟨(off - 0x180) / 8, by omega⟩
  else .reserved

/-- The register a host access reaches: its address is CORE_BASE + offset with offset a multiple of 8 inside the 4096
bytes, and its width is 64 bits; `none` where the access is outside the interface (R11). -/
def registerAt (c : CoreConfig) (addr : Addr) (width : AccessWidth) : Option HostReg :=
  let off := (addr - c.coreBase).toNat
  if width = .b64 ∧ off < 4096 ∧ off % 8 = 0 then some (hostReg off) else none

/-- The value a host read returns: CMD and the reserved offsets read 0 (R13, R14). -/
def readReg (r : HostReg) (s : State) : Word :=
  match r with
  | .cmd => 0
  | .status => statusWord s
  | .srcAddr => s.srcAddr
  | .srcLen => s.srcLen
  | .dstAddr => s.dstAddr
  | .dstCap => s.dstCap
  | .dstLen => s.dstLen
  | .keyIn i => s.keyIn[i]
  | .tweakIn i => s.tweakIn[i]
  | .blkIn i => s.blkIn[i]
  | .blkOut i => s.blkOut[i]
  | .reserved => 0

/-- A host write to a register other than CMD. Writes to STATUS, DST_LEN, BLK_OUT and the reserved offsets have no
effect (R14, R15, R19, R23). CMD holds no value (R13): what a write to it does is Sys2Proof/Machine/HostAccess.lean. -/
def writeReg (r : HostReg) (v : Word) (s : State) : State :=
  match r with
  | .cmd => s
  | .status => s
  | .srcAddr => { s with srcAddr := v }
  | .srcLen => { s with srcLen := v }
  | .dstAddr => { s with dstAddr := v }
  | .dstCap => { s with dstCap := v }
  | .dstLen => s
  | .keyIn i => { s with keyIn := s.keyIn.set i v }
  | .tweakIn i => { s with tweakIn := s.tweakIn.set i v }
  | .blkIn i => { s with blkIn := s.blkIn.set i v }
  | .blkOut _ => s
  | .reserved => s

end Sys2Proof.Machine
end

