-- ==== Sys2Proof/Machine/Cipher.lean ====
section
/-! DEFINITION. The Cipher Core: the one-block transform and its key schedule (spec/41_block_transform.md R74 to R84;
spec/40_config_init.md R64, R65). -/

namespace Sys2Proof.Machine

/-! ### Key and tweak rings -/

/-- The parity word: C240 XOR all key words (R64). -/
def parityWord (key : List Word) : Word := key.foldl (· ^^^ ·) c240

/-- st.K after INIT (R63, R64): words 0 to n−1 are the key, word n the parity word; the words above n, which no command
reads (R27), keep what they held (log 10). -/
def keyRingOf {w : BlockWidth} (key : Block w) (old : Vector Word 17) : Vector Word 17 :=
  Vector.ofFn fun i =>
    if h : i.val < w.words then key[i.val]
    else if i.val = w.words then parityWord key.toList
    else old[i.val]

/-- `TweakRing(t0, t1)` (R65). -/
def tweakRingOf (t0 t1 : Word) : Vector Word 3 := #v[t0, t1, t0 ^^^ t1]

/-! ### Primitive operations -/

/-- `rotl64(x, r)` (spec/00_scope.md, Notation), for 0 ≤ r ≤ 63. -/
def rotl64 (x : Word) (r : Nat) : Word := if r = 0 then x else (x <<< r) ||| (x >>> (64 - r))

/-- `rotr64(x, r) = rotl64(x, (64 - r) mod 64)` (spec/00_scope.md, Notation). -/
def rotr64 (x : Word) (r : Nat) : Word := rotl64 x ((64 - r) % 64)

/-- MIX (R74). -/
def mix (x0 x1 : Word) (r : Nat) : Word × Word :=
  (x0 + x1, rotl64 x1 r ^^^ (x0 + x1))

/-- UN-MIX (R75). -/
def unmix (y0 y1 : Word) (r : Nat) : Word × Word :=
  (y0 - rotr64 (y1 ^^^ y0) r, rotr64 (y1 ^^^ y0) r)

/-- Apply an operation on pairs of words, with the rotation amount of each pair, to the pairs (2j, 2j+1) of a block
(R77). -/
def mapPairs {w : BlockWidth} (f : Word → Word → Nat → Word × Word) (row : Vector (Fin 64) w.pairs) (b : Block w) :
    Block w :=
  Vector.ofFn fun i =>
    let j : Fin w.pairs := ⟨i.val / 2, BlockWidth.half_lt i.isLt⟩
    let y := f (b[2 * j.val]'(BlockWidth.even_lt j.isLt)) (b[2 * j.val + 1]'(BlockWidth.odd_lt j.isLt)) row[j]
    if i.val % 2 = 0 then y.1 else y.2

/-! ### One block under a key -/

/-- What a transform of a block of width `w` reads besides its argument (R83): the tables, the round count and the
rings. -/
structure CipherContext (w : BlockWidth) where
  cfg : CoreConfig
  nr : Nat
  keyRing : Vector Word 17
  tweakRing : Vector Word 3
  deriving DecidableEq, Repr

/-- The context of the loaded key (R68, R83). -/
def State.cipher (s : State) : CipherContext s.nw where
  cfg := s.cfg
  nr := s.nr.toNat
  keyRing := s.keyRing
  tweakRing := s.tweakRing

/-- Row `d mod 8` of ROT_TABLE[n] (R72). -/
def CipherContext.rotRow {w : BlockWidth} (c : CipherContext w) (d : Nat) : Vector (Fin 64) w.pairs :=
  (c.cfg.rot w)[d % 8]

/-- `MixBlock(E, d)` (R77). -/
def mixBlock {w : BlockWidth} (c : CipherContext w) (d : Nat) (e : Block w) : Block w := mapPairs mix (c.rotRow d) e

/-- `UnmixBlock(F, d)` (R77). -/
def unmixBlock {w : BlockWidth} (c : CipherContext w) (d : Nat) (f : Block w) : Block w := mapPairs unmix (c.rotRow d) f

/-- `Permute(F)`: V[i] = F[PERM[i]] (R78). -/
def permute {w : BlockWidth} (c : CipherContext w) (f : Block w) : Block w :=
  Vector.ofFn fun i => f[(c.cfg.perm w)[i]]

/-- `InvPermute(V)`: F[i] = V[PERM_INV[i]] (R78). -/
def invPermute {w : BlockWidth} (c : CipherContext w) (v : Block w) : Block w :=
  Vector.ofFn fun i => v[(c.cfg.permInv w)[i]]

/-- The tweak-ring index of a tweak term at sub-key s: its table read cyclically (R84; log 8). An empty table reads 0. -/
def tweakIndex (indices : List (Fin 3)) (s : Nat) : Fin 3 := indices.getD (s % indices.length) 0

/-- One term SUBKEY_LAYOUT adds to a word of sub-key s (R79, R84). -/
def subkeyTerm (t : SubkeyTerm) (ring : Vector Word 3) (s : Nat) : Word :=
  match t with
  | .tweak indices => ring[tweakIndex indices s]
  | .counter => BitVec.ofNat 64 s

/-- The terms of one word, added up modulo 2^64. -/
def sumTerms (terms : List SubkeyTerm) (ring : Vector Word 3) (s : Nat) : Word :=
  (terms.map fun t => subkeyTerm t ring s).sum

/-- What is added to word i of sub-key s: only the words n−3, n−2, n−1 receive terms (R79, R84). -/
def subkeyAddend {w : BlockWidth} (c : CipherContext w) (s i : Nat) : Word :=
  if i + 3 = w.words then sumTerms c.cfg.layout.atN3 c.tweakRing s
  else if i + 2 = w.words then sumTerms c.cfg.layout.atN2 c.tweakRing s
  else if i + 1 = w.words then sumTerms c.cfg.layout.atN1 c.tweakRing s
  else 0

/-- `SubKey(s)` (R79), s an unbounded integer. -/
def subKey {w : BlockWidth} (c : CipherContext w) (s : Nat) : Block w :=
  Vector.ofFn fun i =>
    c.keyRing[(s + i.val) % (w.words + 1)]'(Nat.lt_of_lt_of_le (Nat.mod_lt _ (Nat.succ_pos _))
      (Nat.succ_le_succ w.words_le)) + subkeyAddend c s i.val

/-- Word-wise addition of a sub-key (R80). -/
def addWords {w : BlockWidth} (v k : Block w) : Block w := Vector.ofFn fun i => v[i] + k[i]

/-- Word-wise subtraction of a sub-key (R81). -/
def subWords {w : BlockWidth} (v k : Block w) : Block w := Vector.ofFn fun i => v[i] - k[i]

/-- Round d of BlockEncrypt (R80): sub-key injection where d mod 4 = 0, MIX, permutation. -/
def encryptRound {w : BlockWidth} (c : CipherContext w) (d : Nat) (v : Block w) : Block w :=
  permute c (mixBlock c d (if d % 4 = 0 then addWords v (subKey c (d / 4)) else v))

/-- Round d of BlockDecrypt (R81). -/
def decryptRound {w : BlockWidth} (c : CipherContext w) (d : Nat) (v : Block w) : Block w :=
  let e := unmixBlock c d (invPermute c v)
  if d % 4 = 0 then subWords e (subKey c (d / 4)) else e

/-- Rounds 0 to k−1, ascending (R80). -/
def encryptRounds {w : BlockWidth} (c : CipherContext w) : Nat → Block w → Block w
  | 0, v => v
  | k + 1, v => encryptRound c k (encryptRounds c k v)

/-- Rounds k−1 down to 0 (R81). -/
def decryptRounds {w : BlockWidth} (c : CipherContext w) : Nat → Block w → Block w
  | 0, v => v
  | k + 1, v => decryptRounds c k (decryptRound c k v)

/-- `BlockEncrypt(P)` (R80). -/
def blockEncrypt {w : BlockWidth} (c : CipherContext w) (p : Block w) : Block w :=
  addWords (encryptRounds c c.nr p) (subKey c (c.nr / 4))

/-- `BlockDecrypt(C)` (R81). -/
def blockDecrypt {w : BlockWidth} (c : CipherContext w) (x : Block w) : Block w :=
  decryptRounds c c.nr (subWords x (subKey c (c.nr / 4)))

end Sys2Proof.Machine
end

