-- ==== Sys2Proof/Machine/BlockTransform.lean ====
section
/-! DEFINITION. ENCB and DECB (spec/41_block_transform.md R90, R91). -/

namespace Sys2Proof.Machine

/-- A block command (R90, R91): RequireKeyed (R121), then transform BLK_IN[0..n−1] into BLK_OUT[0..n−1]. -/
def blockCommand (f : {w : BlockWidth} → CipherContext w → Block w → Block w) (s : State) :
    Host.Outcome State Fault Refusal :=
  if s.keyValid = false then .next (raiseError false .notInitialized s)
  else .next (putBlock (withBlock (f s.cipher (firstWords s.nw s.blkIn)) s.blkOut) s)

/-- ENCB (R90). -/
def execEncb (s : State) : Host.Outcome State Fault Refusal := blockCommand blockEncrypt s

/-- DECB (R91). -/
def execDecb (s : State) : Host.Outcome State Fault Refusal := blockCommand blockDecrypt s

end Sys2Proof.Machine
end

