-- ==== Sys2Proof/Machine/Padding.lean ====
section
/-! DEFINITION. The Chunking Driver: padding, the terminator scan and the block loops of ENC and DEC
(spec/42_chunking.md R100 to R113). -/

namespace Sys2Proof.Machine

/-- The terminator byte (R100). -/
def terminator : Byte := 0xFF

/-- The terminator-bearing chunk: the `r` last bytes of the message, the terminator, and zero fill to `B` bytes (R102,
R103). -/
def lastChunk (B : Nat) (tail : List Byte) : List Byte :=
  tail ++ [terminator] ++ List.replicate (B - 1 - tail.length) 0

/-- `Pad(m)` (R100). -/
def pad (B : Nat) (m : List Byte) : List Byte :=
  m ++ [terminator] ++ List.replicate (B - 1 - m.length % B) 0

/-- The backward scan over the indices k−1 to 0. -/
def scanBelow (buf : List Byte) : Nat → Option Nat
  | 0 => none
  | k + 1 => if buf.getD k 0 = terminator then some k else scanBelow buf k

/-- `TerminatorScan(buf)` for a block of `B` bytes; `none` is the −1 of R106. Index 0 is examined (R107). -/
def terminatorScan (B : Nat) (buf : List Byte) : Option Nat := scanBelow buf B

/-- `StoreWords(BlockEncrypt(LoadWords(buf, n)), n)` (R104). -/
def encryptBytes {w : BlockWidth} (c : CipherContext w) (buf : List Byte) : List Byte :=
  storeWords c.cfg.byteOrder (blockEncrypt c (loadWords c.cfg.byteOrder buf w.words))

/-- `StoreWords(BlockDecrypt(LoadWords(buf, n)), n)` (R110). -/
def decryptBytes {w : BlockWidth} (c : CipherContext w) (buf : List Byte) : List Byte :=
  storeWords c.cfg.byteOrder (blockDecrypt c (loadWords c.cfg.byteOrder buf w.words))

/-- The loop of R104 and R110 over `count` whole blocks, generic in the block transform `f` (R113): read the `B` bytes
at `src`, transform them, write them at `dst`, and go on with the next block (R43). -/
def transformBlocks (f : List Byte → List Byte) (B : Nat) : Nat → Nat → Nat → Memory → Memory
  | 0, _, _, m => m
  | count + 1, src, dst, m =>
    transformBlocks f B count (src + B) (dst + B) (writeBytes m dst (f (readBytes m src B)))

end Sys2Proof.Machine
end

