-- ==== Sys2Proof/Machine/Chunking.lean ====
section
/-! DEFINITION. ENC and DEC (spec/42_chunking.md R104, R105, R110, R111). Addresses, lengths and indices are unbounded
integers, as the pseudocode has them. -/

namespace Sys2Proof.Machine

/-- `Fits` of both regions (R41). -/
abbrev regionsFit (s : State) : Prop :=
  Fits s.srcAddr.toNat s.srcLen.toNat ∧ Fits s.dstAddr.toNat s.dstCap.toNat

/-- `Overlap` of the source and the destination region (R42). -/
abbrev regionsOverlap (s : State) : Prop :=
  Overlap s.srcAddr.toNat s.srcLen.toNat s.dstAddr.toNat s.dstCap.toNat

/-- The source or the destination region is not ordinary memory (R45). -/
def regionsTouchDevice (s : State) : Bool :=
  touchesDevice s.cfg s.srcAddr.toNat s.srcLen.toNat || touchesDevice s.cfg s.dstAddr.toNat s.dstCap.toNat

/-- The output length of ENC: `(sn / B + 1) * B` (R101, R104). -/
def encLength (s : State) : Nat := (s.srcLen.toNat / s.nw.bytes + 1) * s.nw.bytes

/-- The checks of ENC in their order (R104, R124); `none` when all pass. -/
def encCheck (s : State) : Option ErrorCode :=
  if s.keyValid = false then some .notInitialized
  else if ¬regionsFit s then some .addressRange
  else if encLength s > s.dstCap.toNat then some .destinationTooSmall
  else if regionsOverlap s then some .bufferOverlap
  else none

/-- Host memory after a successful ENC (R104): the non-terminator chunks, then the terminator-bearing one. -/
def encMemory (s : State) : Memory :=
  let B := s.nw.bytes
  let nfull := s.srcLen.toNat / B
  let r := s.srcLen.toNat - nfull * B
  let m := transformBlocks (encryptBytes s.cipher) B nfull s.srcAddr.toNat s.dstAddr.toNat s.mem
  let buf := lastChunk B (readBytes m (s.srcAddr.toNat + nfull * B) r)
  writeBytes m (s.dstAddr.toNat + nfull * B) (encryptBytes s.cipher buf)

/-- ENC (R104). -/
def execEnc (s : State) : Host.Outcome State Fault Refusal :=
  match encCheck s with
  | some e => .next (raiseError true e s)
  | none =>
    if regionsTouchDevice s then .refused .bufferInDevice
    else .next (finishBytes (encMemory s) (encLength s) s)

/-- The checks of DEC that come before any memory access, in their order (R105, R110, R124). -/
def decCheck (s : State) : Option ErrorCode :=
  if s.keyValid = false then some .notInitialized
  else if s.srcLen.toNat = 0 ∨ s.srcLen.toNat % s.nw.bytes ≠ 0 then some .invalidCiphertextLength
  else if ¬regionsFit s then some .addressRange
  else if s.dstCap.toNat < s.srcLen.toNat - 1 then some .destinationTooSmall
  else if regionsOverlap s then some .bufferOverlap
  else none

/-- `(nb - 1) * B`: how many bytes of DEC's input come before the last block (R110). -/
def decFull (s : State) : Nat := (s.srcLen.toNat / s.nw.bytes - 1) * s.nw.bytes

/-- Host memory once every block but the last is decrypted and written (R110). -/
def decFullMemory (s : State) : Memory :=
  transformBlocks (decryptBytes s.cipher) s.nw.bytes (s.srcLen.toNat / s.nw.bytes - 1) s.srcAddr.toNat s.dstAddr.toNat
    s.mem

/-- The decrypted last block (R110). -/
def decLast (s : State) : List Byte :=
  decryptBytes s.cipher (readBytes (decFullMemory s) (s.srcAddr.toNat + decFull s) s.nw.bytes)

/-- DEC (R110). Where the scan finds no terminator the blocks written before hold unspecified values (R111): free
bytes stand there instead of `decFullMemory`. -/
def execDec (s : State) : Host.Outcome State Fault Refusal :=
  match decCheck s with
  | some e => .next (raiseError true e s)
  | none =>
    if regionsTouchDevice s then .refused .bufferInDevice
    else
      match terminatorScan s.nw.bytes (decLast s) with
      | none => .next (failDecode s.dstAddr.toNat (decFull s) s)
      | some ndx =>
        .next (finishBytes (writeBytes (decFullMemory s) (s.dstAddr.toNat + decFull s) ((decLast s).take ndx))
          (decFull s + ndx) s)

end Sys2Proof.Machine
end

