-- ==== Sys2Proof/Machine/ConfigInit.lean ====
section
/-! DEFINITION. CONFIG, CONFIGR, INIT (spec/40_config_init.md) and the ILLEGAL command word (spec/60_exceptions.md
R123). -/

namespace Sys2Proof.Machine

/-- CONFIG (R60). -/
def execConfig (bits : Nat) (s : State) : Host.Outcome State Fault Refusal :=
  match BlockWidth.ofBits bits with
  | none => .next (raiseError false .invalidBlockSize s)
  | some n => .next (applyConfig n n.defaultRounds s)

/-- CONFIGR (R61): the block size is checked first, then the round count. -/
def execConfigr (bits : Nat) (rounds : Int) (s : State) : Host.Outcome State Fault Refusal :=
  match BlockWidth.ofBits bits with
  | none => .next (raiseError false .invalidBlockSize s)
  | some n =>
    if rounds ≤ 0 ∨ rounds % 4 ≠ 0 then .next (raiseError false .invalidRoundCount s)
    else .next (applyConfig n (BitVec.ofInt 32 rounds) s)

/-- INIT (R63), with RequireConfigured first (R121). -/
def execInit (keylen : Nat) (s : State) : Host.Outcome State Fault Refusal :=
  if s.cfgValid = false then .next (raiseError false .notConfigured s)
  else if ¬(keylen = 4 ∨ keylen = 8 ∨ keylen = 16) then .next (raiseError false .invalidKeySize s)
  else if keylen ≠ s.nw.words then .next (raiseError false .invalidKeySize s)
  else
    .next (loadKey (keyRingOf (firstWords s.nw s.keyIn) s.keyRing) (tweakRingOf s.tweakIn[0] s.tweakIn[1]) s)

/-- A command word that decodes to ILLEGAL (R123). It is no row of the opcode table, so it has no constructor. -/
def execIllegal (s : State) : Host.Outcome State Fault Refusal :=
  .next (raiseError false .illegalCommand s)

end Sys2Proof.Machine
end

