-- ==== Sys2Proof/Machine/HostAccess.lean ====
section
/-! DEFINITION. What one host access does (spec/10_state.md R10 to R14; spec/20_memory.md R39, R48;
spec/70_reset_and_hazards.md R140). -/

namespace Sys2Proof.Machine

/-- A command word written to REG[CMD] runs as one atomic transition (R10, R13, R53). -/
def runCommand (v : Word) (s : State) : Host.Outcome State Fault Refusal :=
  match decode v with
  | .instr i => exec i s
  | .illegal _ => execIllegal s

/-- A 64-bit host write to a register (R12): CMD executes, the others store or ignore. -/
def hostWrite (r : HostReg) (v : Word) (s : State) : Host.Outcome State Fault Refusal :=
  if r = .cmd then runCommand v s else .next (writeReg r v s)

/-- One host access, or the reset input. -/
def hostAccess (op : HostOp) (s : State) : Host.Outcome State Fault Refusal :=
  match op with
  | .regWrite addr width v =>
    match registerAt s.cfg addr width with
    | none => .refused .registerAccess
    | some r => hostWrite r v s
  | .regRead addr width =>
    match registerAt s.cfg addr width with
    | none => .refused .registerAccess
    | some r => .next (logRead (readReg r s) s)
  | .memStore addr b =>
    if touchesDevice s.cfg addr.toNat 1 then .refused .hostDeviceAccess else .next (storeByte addr b s)
  | .memLoad addr =>
    if touchesDevice s.cfg addr.toNat 1 then .refused .hostDeviceAccess
    else .next (logRead ((s.mem.read addr.toNat).zeroExtend 64) s)
  | .reset => .next (resetCore s)

/-- A host write of `v` to REG[CMD]. -/
def commandWrite (c : CoreConfig) (v : Word) : HostOp := .regWrite c.coreBase .b64 v

end Sys2Proof.Machine
end

