-- ==== Sys2Proof/Machine/Step.lean ====
section
/-! DEFINITION. One step: the next access of the host's sequence (spec/10_state.md R10, R26;
spec/70_reset_and_hazards.md R149). -/

namespace Sys2Proof.Machine

/-- The machine takes the oldest host access still to come. With none left nothing happens and all state is held
(R133). TF-CORE has no program counter and fetches no instructions (R26). -/
def step (s : State) : Host.Outcome State Fault Refusal :=
  match s.hostOps with
  | [] => .next s
  | op :: rest => hostAccess op { s with hostOps := rest }

/-- `s` with a host write of the command word to REG[CMD] as the next access: the word's low `nbits` bits are those of
`w`, the bits above them zero. -/
def State.withFetchWord (s : State) (nbits w : Nat) : State :=
  { s with hostOps := commandWrite s.cfg (BitVec.ofNat 64 (w % 2 ^ nbits)) :: s.hostOps }

end Sys2Proof.Machine
end

