-- ==== Sys2Proof/Safety.lean ====
section
/-! DEFINITION. The terms claims about TF-CORE are stated in: the invariant of every reachable state, what the host
can observe, and the byte-string functions that ENC and DEC compute. -/

namespace Sys2Proof.Machine

/-! ### The invariant -/

/-- A table is a permutation of its indices (R70). -/
abbrev IsPermutation {n : Nat} (p : Vector (Fin n) n) : Prop := p.toList.Nodup

/-- Every amount of a rotation table lies in 1 .. 63 (R72). -/
abbrev RotationsInRange {k : Nat} (t : Vector (Vector (Fin 64) k) 8) : Prop :=
  ∀ (d : Fin 8) (j : Fin k), t[d][j] ≠ 0

/-- The configuration arguments are legal (R6, R70, R72; D2: CORE_BASE is any 4096-byte-aligned address). -/
abbrev ConfigLegal (c : CoreConfig) : Prop :=
  IsPermutation c.perm4 ∧ IsPermutation c.perm8 ∧ IsPermutation c.perm16 ∧
  RotationsInRange c.rot4 ∧ RotationsInRange c.rot8 ∧ RotationsInRange c.rot16 ∧
  c.coreBase.toNat % 4096 = 0

/-- st.cfg_valid, st.nw and st.nr agree (R24). -/
abbrev ConfigurationConsistent (s : State) : Prop :=
  (s.cfgValid = true → s.nw ≠ .unset ∧ 0 < s.nr.toNat ∧ s.nr.toNat % 4 = 0 ∧ s.nr.toNat < 2 ^ 31) ∧
  (s.cfgValid = false → s.nw = .unset ∧ s.nr = 0)

/-- XOR of a list of words. -/
def xorWords (ws : List Word) : Word := ws.foldr (· ^^^ ·) 0

/-- While a key is loaded the core is configured (R25), the parity word is C240 XOR all key words (R66), and the third
tweak word is the XOR of the first two (R65). -/
abbrev KeyConsistent (s : State) : Prop :=
  s.keyValid = true →
    s.cfgValid = true ∧
    s.keyRing[s.nw.words]'(Nat.lt_succ_of_le s.nw.words_le)
      = 0x1BD11BDAA9FC1A22 ^^^ xorWords (s.keyRing.toList.take s.nw.words) ∧
    s.tweakRing[2] = s.tweakRing[0] ^^^ s.tweakRing[1]

/-- The invariant: the configuration arguments are legal, memory is in its canonical form, the configuration and the
key state are consistent, and st.err holds no reserved code (U7). -/
abbrev State.Inv (s : State) : Prop :=
  ConfigLegal s.cfg ∧ s.mem.wf ∧ ConfigurationConsistent s ∧ KeyConsistent s ∧ s.err.toNat ≤ 11

/-! ### Observation -/

/-- Two states that no host access can tell apart (R34, U1): they differ at most in the key ring and the tweak ring
where no key is loaded, and in the key-ring words above the parity word. -/
def SameToHost (s t : State) : Prop :=
  t = { s with keyRing := t.keyRing, tweakRing := t.tweakRing } ∧
  (s.keyValid = true →
    t.tweakRing = s.tweakRing ∧ ∀ i (h : i < 17), i ≤ s.nw.words → t.keyRing[i] = s.keyRing[i])

/-- Two outcomes of the same kind, with the same reason or with related next states. -/
def OutcomesRelated (rel : State → State → Prop) :
    Host.Outcome State Fault Refusal → Host.Outcome State Fault Refusal → Prop
  | .next s, .next t => rel s t
  | .fault q, .fault r => q = r
  | .refused q, .refused r => q = r
  | _, _ => False

/-- A host write to this register stores its value (R12): the access column says RW. -/
def HostReg.writable : HostReg → Bool
  | .cmd => false
  | .status => false
  | .srcAddr => true
  | .srcLen => true
  | .dstAddr => true
  | .dstCap => true
  | .dstLen => false
  | .keyIn _ => true
  | .tweakIn _ => true
  | .blkIn _ => true
  | .blkOut _ => false
  | .reserved => false

/-! ### Which commands write what -/

/-- CONFIG and CONFIGR, the only writers of the configuration (R24). -/
def isConfigure : Instr → Bool
  | .config _ => true
  | .configr _ _ => true
  | .init _ => false
  | .encb => false
  | .decb => false
  | .enc => false
  | .dec => false

/-- INIT, the only writer of the rings (R27, R28, R66). -/
def isInit : Instr → Bool
  | .config _ => false
  | .configr _ _ => false
  | .init _ => true
  | .encb => false
  | .decb => false
  | .enc => false
  | .dec => false

/-- ENCB and DECB, the only writers of BLK_OUT (R23). -/
def isBlockCommand : Instr → Bool
  | .config _ => false
  | .configr _ _ => false
  | .init _ => false
  | .encb => true
  | .decb => true
  | .enc => false
  | .dec => false

/-- ENC and DEC, the only writers of DST_LEN (R19) and the only commands that access host memory (R36). -/
def isBytesCommand : Instr → Bool
  | .config _ => false
  | .configr _ _ => false
  | .init _ => false
  | .encb => false
  | .decb => false
  | .enc => true
  | .dec => true

/-! ### Byte strings -/

/-- A byte string processed block by block: `f` of each whole block of `B` bytes, in order (R102). -/
def mapChunks (f : List Byte → List Byte) (B : Nat) (s : List Byte) : List Byte :=
  (List.range (s.length / B)).flatMap fun b => f ((s.drop (b * B)).take B)

/-- The message of an ENC, or the ciphertext of a DEC: the source bytes (R18). -/
def sourceBytes (s : State) : List Byte := readBytes s.mem s.srcAddr.toNat s.srcLen.toNat

/-- The whole plaintext, padding included, of the ciphertext a DEC reads (R110). -/
def decryptedBytes (s : State) : List Byte := mapChunks (decryptBytes s.cipher) s.nw.bytes (sourceBytes s)

/-- The ranges `[a, a + n)` and the address `x` are apart. -/
abbrev Outside (x a n : Nat) : Prop := x < a ∨ a + n ≤ x

/-- What ENC needs to run to its end (R104, R45): a key, fitting regions that do not overlap, room for the output, and
ordinary memory. -/
abbrev EncReady (s : State) : Prop :=
  s.keyValid = true ∧
  s.srcAddr.toNat + s.srcLen.toNat ≤ 2 ^ 64 ∧ s.dstAddr.toNat + s.dstCap.toNat ≤ 2 ^ 64 ∧
  (s.srcLen.toNat / s.nw.bytes + 1) * s.nw.bytes ≤ s.dstCap.toNat ∧
  ¬Overlap s.srcAddr.toNat s.srcLen.toNat s.dstAddr.toNat s.dstCap.toNat ∧
  regionsTouchDevice s = false

/-- What DEC needs to decrypt its input (R105, R110, R45). -/
abbrev DecReady (s : State) : Prop :=
  s.keyValid = true ∧ 0 < s.srcLen.toNat ∧ s.srcLen.toNat % s.nw.bytes = 0 ∧
  s.srcAddr.toNat + s.srcLen.toNat ≤ 2 ^ 64 ∧ s.dstAddr.toNat + s.dstCap.toNat ≤ 2 ^ 64 ∧
  s.srcLen.toNat - 1 ≤ s.dstCap.toNat ∧
  ¬Overlap s.srcAddr.toNat s.srcLen.toNat s.dstAddr.toNat s.dstCap.toNat ∧
  regionsTouchDevice s = false

end Sys2Proof.Machine
end

