-- ==== Sys2Proof/Certificates/Slice0/Obligations.lean ====
section
/-! DEFINITION. The statements about TF-CORE that are put to the provers. Each docstring names the rules of spec/ the
statement formalises; statements about a value the spec leaves open say so. -/

open Sys2Proof Sys2Proof.Machine

/-! ### The command word -/

/-- R52, R53, R56: the decoder reads back every well-formed command from the word the encoder makes of it, with every
operand at every value the encoding admits. -/
def Obligations.DecodeOfEncodeIsIdentity : Prop :=
  ∀ i : Instr, i.WellFormed → decode (encode i) = .instr i

/-- R52, R53: each command has one word only: the word a command is decoded from is the word the encoder makes. -/
def Obligations.EncodeOfDecodeIsIdentity : Prop :=
  ∀ (v : Word) (i : Instr), decode v = .instr i → i.WellFormed ∧ encode i = v

/-- R52: a command word selects a mnemonic exactly when `(v & mask) = match`, with A16 and A32 as its free operands,
and is ILLEGAL exactly when it matches no row. One word has one decoding, so no word matches two rows. -/
def Obligations.DecodeSelectsByMaskAndMatch : Prop :=
  ∀ v : Word,
    (v &&& 0xFFFFFFFF0000FFFF = 0x0000000000000001 ↔
      decode v = .instr (.config (v.extractLsb' 16 16).toNat)) ∧
    (v &&& 0x000000000000FFFF = 0x0000000000000101 ↔
      decode v = .instr (.configr (v.extractLsb' 16 16).toNat (v.extractLsb' 32 32).toInt)) ∧
    (v &&& 0xFFFFFFFF0000FFFF = 0x0000000000000002 ↔
      decode v = .instr (.init (v.extractLsb' 16 16).toNat)) ∧
    (v = 0x0000000000000003 ↔ decode v = .instr .encb) ∧
    (v = 0x0000000000000004 ↔ decode v = .instr .decb) ∧
    (v = 0x0000000000000005 ↔ decode v = .instr .enc) ∧
    (v = 0x0000000000000006 ↔ decode v = .instr .dec) ∧
    ((v &&& 0xFFFFFFFF0000FFFF ≠ 0x0000000000000001 ∧ v &&& 0x000000000000FFFF ≠ 0x0000000000000101 ∧
      v &&& 0xFFFFFFFF0000FFFF ≠ 0x0000000000000002 ∧ v ≠ 3 ∧ v ≠ 4 ∧ v ≠ 5 ∧ v ≠ 6) ↔
      ∃ why, decode v = .illegal why)

/-- Words written out from R50 to R52 (and V20, V21, V22 of spec/95_test_vectors.md) decode to what they stand for. -/
def Obligations.SpecWordsDecode : Prop :=
  decode 0x0000000002000001 = .instr (.config 512) ∧
  decode 0xFFFFFFFC01000101 = .instr (.configr 256 (-4)) ∧
  decode 0x7FFFFFFC04000101 = .instr (.configr 1024 2147483644) ∧
  decode 0x0000000000100002 = .instr (.init 16) ∧
  decode 0x0000000000000003 = .instr .encb ∧
  decode 0x0000000000000004 = .instr .decb ∧
  decode 0x0000000000000005 = .instr .enc ∧
  decode 0x0000000000000006 = .instr .dec ∧
  decode 0x0000000000000000 = .illegal .unassignedOpcode ∧
  decode 0x0000000001008101 = .illegal .reservedBits ∧
  decode 0x0000000101000001 = .illegal .configArgument ∧
  decode 0x0000000000040102 = .illegal .initArgument ∧
  decode 0x0000000100000005 = .illegal .blockArgument

/-- R123: an ILLEGAL word raises IllegalCommand (5); it reads no operand register and changes only st.err. -/
def Obligations.IllegalWordChangesOnlyErr : Prop :=
  ∀ (v : Word) (why : IllegalWord) (s : State) (rest : List HostOp), decode v = .illegal why →
    step { s with hostOps := commandWrite s.cfg v :: rest } = .next { s with hostOps := rest, err := 5 }

/-! ### Steps and host accesses -/

/-- R10, R13, R26, R53: a host write of a word to REG[CMD] that decodes to a command runs that command, as one step, on
the state with that access taken off the host's queue. -/
def Obligations.StepRunsDecodedCommand : Prop :=
  ∀ (v : Word) (i : Instr) (s : State) (rest : List HostOp), decode v = .instr i →
    step { s with hostOps := commandWrite s.cfg v :: rest } = exec i { s with hostOps := rest }

/-- A word placed by `withFetchWord` is the very next command; the rest of the host's sequence follows it. -/
def Obligations.FetchWordIsTheNextCommand : Prop :=
  ∀ (v : Word) (i : Instr) (s : State), decode v = .instr i →
    step (s.withFetchWord 64 v.toNat) = exec i s

/-- R133: with no access left, state is held. -/
def Obligations.NoAccessHoldsState : Prop :=
  ∀ s : State, s.hostOps = [] → step s = .next s

/-- R12: where every register stands, for every CORE_BASE. -/
def Obligations.RegisterMapPlacesEveryRegister : Prop :=
  ∀ c : CoreConfig,
    (∀ off : Nat, off < 4096 → off % 8 = 0 →
      registerAt c (c.coreBase + BitVec.ofNat 64 off) .b64 = some (hostReg off)) ∧
    hostReg 0x000 = .cmd ∧ hostReg 0x008 = .status ∧ hostReg 0x010 = .srcAddr ∧ hostReg 0x018 = .srcLen ∧
    hostReg 0x020 = .dstAddr ∧ hostReg 0x028 = .dstCap ∧ hostReg 0x030 = .dstLen ∧
    (∀ i : Fin 16, hostReg (0x040 + 8 * i.val) = .keyIn i) ∧
    (∀ i : Fin 2, hostReg (0x0C0 + 8 * i.val) = .tweakIn i) ∧
    (∀ i : Fin 16, hostReg (0x100 + 8 * i.val) = .blkIn i) ∧
    (∀ i : Fin 16, hostReg (0x180 + 8 * i.val) = .blkOut i) ∧
    (∀ off : Nat, off = 0x038 ∨ (0x0D0 ≤ off ∧ off ≤ 0x0F8) ∨ 0x200 ≤ off → hostReg off = .reserved)

/-- R11: a register access is refused exactly when it is not a 64-bit access at CORE_BASE + offset with offset a
multiple of 8 inside the 4096 bytes. -/
def Obligations.MisplacedRegisterAccessIsRefused : Prop :=
  ∀ (s : State) (rest : List HostOp) (addr : Addr) (width : AccessWidth) (v : Word),
    (¬(width = .b64 ∧ ∃ k, k < 512 ∧ addr = s.cfg.coreBase + BitVec.ofNat 64 (8 * k)) →
      step { s with hostOps := .regWrite addr width v :: rest } = .refused .registerAccess ∧
      step { s with hostOps := .regRead addr width :: rest } = .refused .registerAccess) ∧
    ((width = .b64 ∧ ∃ k, k < 512 ∧ addr = s.cfg.coreBase + BitVec.ofNat 64 (8 * k)) →
      step { s with hostOps := .regWrite addr width v :: rest } ≠ .refused .registerAccess ∧
      ∃ t, step { s with hostOps := .regRead addr width :: rest } = .next t)

/-- R13 to R15, R18 to R23 (reads): a host read returns the value of the register it reaches, register by register, and
changes nothing; CMD and the reserved offsets read 0. -/
def Obligations.HostReadReturnsRegister : Prop :=
  ∀ (s : State) (rest : List HostOp) (addr : Addr) (r : HostReg), registerAt s.cfg addr .b64 = some r →
    ∃ v : Word,
      step { s with hostOps := .regRead addr .b64 :: rest } =
        .next { s with hostOps := rest, reads := s.reads ++ [v] } ∧
      (r = .cmd → v = 0) ∧ (r = .status → v = statusWord s) ∧
      (r = .srcAddr → v = s.srcAddr) ∧ (r = .srcLen → v = s.srcLen) ∧
      (r = .dstAddr → v = s.dstAddr) ∧ (r = .dstCap → v = s.dstCap) ∧ (r = .dstLen → v = s.dstLen) ∧
      (∀ i : Fin 16, r = .keyIn i → v = s.keyIn[i]) ∧ (∀ i : Fin 2, r = .tweakIn i → v = s.tweakIn[i]) ∧
      (∀ i : Fin 16, r = .blkIn i → v = s.blkIn[i]) ∧ (∀ i : Fin 16, r = .blkOut i → v = s.blkOut[i]) ∧
      (r = .reserved → v = 0)

/-- R12, R18, R20 to R23: a host write to a register other than CMD stores the value in a read/write register, the state
element the commands read, written out register by register, and has no effect on a read-only or reserved one; every
other register, the internal state and memory are unchanged. -/
def Obligations.HostWriteStoresOnlyItsRegister : Prop :=
  ∀ (s : State) (rest : List HostOp) (addr : Addr) (v : Word) (r : HostReg),
    registerAt s.cfg addr .b64 = some r → r ≠ .cmd →
    ∃ t, step { s with hostOps := .regWrite addr .b64 v :: rest } = .next t ∧
      readReg r t = (if r.writable then v else readReg r s) ∧
      (∀ q, q ≠ r → readReg q t = readReg q s) ∧
      t = { s with
        srcAddr := t.srcAddr, srcLen := t.srcLen, dstAddr := t.dstAddr, dstCap := t.dstCap,
        keyIn := t.keyIn, tweakIn := t.tweakIn, blkIn := t.blkIn, hostOps := rest } ∧
      t.srcAddr = (if r = .srcAddr then v else s.srcAddr) ∧ t.srcLen = (if r = .srcLen then v else s.srcLen) ∧
      t.dstAddr = (if r = .dstAddr then v else s.dstAddr) ∧ t.dstCap = (if r = .dstCap then v else s.dstCap) ∧
      (∀ i : Fin 16, t.keyIn[i] = if r = .keyIn i then v else s.keyIn[i]) ∧
      (∀ i : Fin 2, t.tweakIn[i] = if r = .tweakIn i then v else s.tweakIn[i]) ∧
      (∀ i : Fin 16, t.blkIn[i] = if r = .blkIn i then v else s.blkIn[i])

/-- R14: a host read of a reserved offset returns 0; a host write to one has no effect. -/
def Obligations.ReservedOffsetsReadZeroIgnoreWrites : Prop :=
  ∀ (s : State) (rest : List HostOp) (off : Nat) (v : Word), off % 8 = 0 →
    (off = 0x038 ∨ (0x0D0 ≤ off ∧ off ≤ 0x0F8) ∨ (0x200 ≤ off ∧ off ≤ 0xFF8)) →
    step { s with hostOps := .regRead (s.cfg.coreBase + BitVec.ofNat 64 off) .b64 :: rest } =
        .next { s with hostOps := rest, reads := s.reads ++ [0] } ∧
      step { s with hostOps := .regWrite (s.cfg.coreBase + BitVec.ofNat 64 off) .b64 v :: rest } =
        .next { s with hostOps := rest }

/-- R15, R17: what a host read of STATUS returns, field by field, in every state; a write to it has no effect; it reads
0 after reset. -/
def Obligations.StatusMirrorsInternalState : Prop :=
  ∀ (s : State) (rest : List HostOp) (v : Word),
    step { s with hostOps := .regRead (s.cfg.coreBase + 8) .b64 :: rest } =
      .next { s with hostOps := rest, reads := s.reads ++ [statusWord s] } ∧
    step { s with hostOps := .regWrite (s.cfg.coreBase + 8) .b64 v :: rest } = .next { s with hostOps := rest } ∧
    (statusWord s).extractLsb' 0 4 = s.err ∧
    (statusWord s).getLsbD 4 = s.cfgValid ∧
    (statusWord s).getLsbD 5 = s.keyValid ∧
    (statusWord s).extractLsb' 6 2 = 0 ∧
    ((statusWord s).extractLsb' 8 8).toNat = s.nw.words ∧
    (statusWord s).extractLsb' 16 16 = 0 ∧
    (statusWord s).extractLsb' 32 32 = s.nr ∧
    statusWord State.reset = 0

/-- R34, R140: reset sets every register and every internal element to its value, host memory stays, and the state
after reset has the same values. Nothing is said of st.K and st.T, which R34 leaves unspecified. -/
def Obligations.ResetGivesTheResetValues : Prop :=
  ∀ (s : State) (rest : List HostOp),
    ∃ t, step { s with hostOps := .reset :: rest } = .next t ∧
      t.mem = s.mem ∧ t.cfg = s.cfg ∧ t.hostOps = rest ∧
      ∀ u, u = t ∨ u = State.reset →
        u.cfgValid = false ∧ u.nw = .unset ∧ u.nr = 0 ∧ u.keyValid = false ∧ u.err = 0 ∧
        u.srcAddr = 0 ∧ u.srcLen = 0 ∧ u.dstAddr = 0 ∧ u.dstCap = 0 ∧ u.dstLen = 0 ∧
        (∀ i : Fin 16, u.keyIn[i] = 0) ∧ (∀ i : Fin 2, u.tweakIn[i] = 0) ∧
        (∀ i : Fin 16, u.blkIn[i] = 0) ∧ (∀ i : Fin 16, u.blkOut[i] = 0) ∧ statusWord u = 0

/-- R35, R48: a host byte store to ordinary memory changes that byte and nothing else; a host byte load returns the
byte and changes nothing. -/
def Obligations.HostMemoryHoldsStoredByte : Prop :=
  ∀ (s : State) (rest : List HostOp) (a : Addr) (b : Byte), s.mem.wf → touchesDevice s.cfg a.toNat 1 = false →
    step { s with hostOps := .memLoad a :: rest } =
      .next { s with hostOps := rest, reads := s.reads ++ [(s.mem.read a.toNat).zeroExtend 64] } ∧
    ∃ t, step { s with hostOps := .memStore a b :: rest } = .next t ∧
      t = { s with mem := t.mem, hostOps := rest } ∧
      t.mem.read a.toNat = b ∧ ∀ x, x ≠ a.toNat → t.mem.read x = s.mem.read x

/-! ### CONFIG, CONFIGR, INIT -/

/-- R60, R62: CONFIG, for every operand. -/
def Obligations.ConfigSelectsBlockSize : Prop :=
  ∀ (bits : Nat) (s : State),
    (bits < 65536 → decode (0x01 ||| (BitVec.ofNat 64 bits <<< 16)) = .instr (.config bits)) ∧
    exec (.config bits) s =
      if bits = 256 then .next { s with cfgValid := true, nw := .words4, nr := 72, keyValid := false, err := 0 }
      else if bits = 512 then .next { s with cfgValid := true, nw := .words8, nr := 72, keyValid := false, err := 0 }
      else if bits = 1024 then .next { s with cfgValid := true, nw := .words16, nr := 80, keyValid := false, err := 0 }
      else .next { s with err := 1 }

/-- R61, R62, R124: CONFIGR, for every operand; the block size is checked first, and a legal round count is what st.nr
then holds. -/
def Obligations.ConfigrSelectsBlockSizeAndRounds : Prop :=
  ∀ (bits : Nat) (rounds : Int) (s : State), bits < 65536 → -2 ^ 31 ≤ rounds → rounds < 2 ^ 31 →
    decode (0x101 ||| (BitVec.ofNat 64 bits <<< 16) ||| (BitVec.ofNat 64 (rounds % 2 ^ 32).toNat <<< 32)) =
      .instr (.configr bits rounds) ∧
    (bits ≠ 256 ∧ bits ≠ 512 ∧ bits ≠ 1024 → exec (.configr bits rounds) s = .next { s with err := 1 }) ∧
    (bits = 256 ∨ bits = 512 ∨ bits = 1024 → rounds ≤ 0 ∨ rounds % 4 ≠ 0 →
      exec (.configr bits rounds) s = .next { s with err := 2 }) ∧
    (bits = 256 ∨ bits = 512 ∨ bits = 1024 → 0 < rounds ∧ rounds % 4 = 0 →
      ∃ t, exec (.configr bits rounds) s = .next t ∧ (t.nr.toNat : Int) = rounds ∧ 64 * t.nw.words = bits ∧
        t = { s with cfgValid := true, nw := t.nw, nr := t.nr, keyValid := false, err := 0 })

/-- R63, R64, R65, R121: INIT, for every operand. What the key-ring words above the parity word hold is unspecified
(U1) and not stated. -/
def Obligations.InitLoadsKeyAndTweak : Prop :=
  ∀ (keylen : Nat) (s : State),
    (keylen < 65536 → decode (0x02 ||| (BitVec.ofNat 64 keylen <<< 16)) = .instr (.init keylen)) ∧
    (s.cfgValid = false → exec (.init keylen) s = .next { s with err := 6 }) ∧
    (s.cfgValid = true → ¬(keylen = 4 ∨ keylen = 8 ∨ keylen = 16) ∨ keylen ≠ s.nw.words →
      exec (.init keylen) s = .next { s with err := 3 }) ∧
    (s.cfgValid = true → s.nw ≠ .unset → keylen = s.nw.words →
      ∃ t, exec (.init keylen) s = .next t ∧
        (∀ i (h : i < 16), i < keylen → t.keyRing[i] = s.keyIn[i]) ∧
        (∀ h : keylen < 17, t.keyRing[keylen] = 0x1BD11BDAA9FC1A22 ^^^ xorWords (s.keyIn.toList.take keylen)) ∧
        t.tweakRing = #v[s.tweakIn[0], s.tweakIn[1], s.tweakIn[0] ^^^ s.tweakIn[1]] ∧
        t = { s with keyRing := t.keyRing, tweakRing := t.tweakRing, keyValid := true, err := 0 })

/-- R67: a CONFIG, CONFIGR or INIT that fails (leaves a code other than 0) changes only st.err. -/
def Obligations.FailedConfigurationChangesOnlyErr : Prop :=
  ∀ (i : Instr) (s t : State), isConfigure i = true ∨ isInit i = true → exec i s = .next t → t.err ≠ 0 →
    t = { s with err := t.err }

/-- R142: after a successful CONFIG or CONFIGR, even of the block size in force, every block and byte command fails
with NotInitialized (7) and changes nothing else but DST_LEN for ENC and DEC; a failed one keeps the key. -/
def Obligations.ReconfigurationDropsTheKey : Prop :=
  ∀ (i j : Instr) (s t : State), isConfigure i = true → exec i s = .next t →
    (t.err = 0 → t.keyValid = false ∧
      (isBlockCommand j = true → exec j t = .next { t with err := 7 }) ∧
      (isBytesCommand j = true → exec j t = .next { t with err := 7, dstLen := 0 })) ∧
    (t.err ≠ 0 → t.keyValid = s.keyValid ∧ t.keyRing = s.keyRing ∧ t.tweakRing = s.tweakRing)

/-! ### The block transform -/

/-- R74, R75: MIX and UN-MIX on two words, with the rotation of Lean's own bit vectors, for every rotation amount
below 64. -/
def Obligations.MixAddsRotatesXors : Prop :=
  ∀ (x0 x1 : Word) (r : Nat), r < 64 →
    mix x0 x1 r = (x0 + x1, x1.rotateLeft r ^^^ (x0 + x1)) ∧
    unmix x0 x1 r = (x0 - (x1 ^^^ x0).rotateRight r, (x1 ^^^ x0).rotateRight r)

/-- R76: UN-MIX undoes MIX for all words and every rotation amount below 64. -/
def Obligations.UnmixInvertsMix : Prop :=
  ∀ (x0 x1 : Word) (r : Nat), r < 64 → unmix (mix x0 x1 r).1 (mix x0 x1 r).2 r = (x0, x1)

/-- Rotation by r moves bit i to bit (i + r) mod 64 (spec/00_scope.md, Notation), and `rotr64` is its inverse. -/
def Obligations.RotationMovesEveryBit : Prop :=
  ∀ (x : Word) (r i : Nat), r < 64 → i < 64 →
    (rotl64 x r).getLsbD ((i + r) % 64) = x.getLsbD i ∧ (rotr64 x r).getLsbD i = x.getLsbD ((i + r) % 64)

/-- R71, R78: for legal tables PERM_INV[PERM[i]] = i, Permute puts word PERM[i] and InvPermute word PERM_INV[i] at
place i, and InvPermute undoes Permute. -/
def Obligations.InvPermuteInvertsPermute : Prop :=
  ∀ (w : BlockWidth) (c : CipherContext w) (f : Block w), ConfigLegal c.cfg →
    (∀ i : Fin w.words, (c.cfg.permInv w)[(c.cfg.perm w)[i]] = i) ∧
    (∀ i : Fin w.words, (permute c f)[i] = f[(c.cfg.perm w)[i]]) ∧
    (∀ i : Fin w.words, (invPermute c f)[i] = f[(c.cfg.permInv w)[i]]) ∧
    invPermute c (permute c f) = f

/-- R79: the words of sub-key s under the decided default layout, for every width. The bounds hk, h0 and h1 hold of
every s and i; they are there to write the indices down. -/
def Obligations.SubKeyFollowsTheSchedule : Prop :=
  ∀ (w : BlockWidth) (c : CipherContext w) (s i : Nat) (h : i < w.words) (hk : (s + i) % (w.words + 1) < 17)
    (h0 : s % 3 < 3) (h1 : (s + 1) % 3 < 3), c.cfg.layout = defaultLayout →
    (i + 3 < w.words → (subKey c s)[i] = c.keyRing[(s + i) % (w.words + 1)]) ∧
    (i + 3 = w.words → (subKey c s)[i] = c.keyRing[(s + i) % (w.words + 1)] + c.tweakRing[s % 3]) ∧
    (i + 2 = w.words → (subKey c s)[i] = c.keyRing[(s + i) % (w.words + 1)] + c.tweakRing[(s + 1) % 3]) ∧
    (i + 1 = w.words → (subKey c s)[i] = c.keyRing[(s + i) % (w.words + 1)] + BitVec.ofNat 64 s)

/-- R77, R78, R80: BlockEncrypt word by word, for every width: each round adds the sub-key where d mod 4 = 0, mixes the
pairs (2j, 2j+1) by ROT[d mod 8][j] and moves word PERM[i] to place i; the last sub-key is added at the end. -/
def Obligations.BlockEncryptRunsTheRounds : Prop :=
  ∀ (w : BlockWidth) (c : CipherContext w) (p : Block w),
    encryptRounds c 0 p = p ∧
    (∀ i : Fin w.words, (blockEncrypt c p)[i] = (encryptRounds c c.nr p)[i] + (subKey c (c.nr / 4))[i]) ∧
    ∀ (d : Nat) (hd : d % 8 < 8) (j : Fin w.pairs) (i a b : Fin w.words), a.val = 2 * j.val → b.val = 2 * j.val + 1 →
      let v := encryptRounds c d p
      let e := fun k : Fin w.words => if d % 4 = 0 then v[k] + (subKey c (d / 4))[k] else v[k]
      ((c.cfg.perm w)[i] = a → (encryptRounds c (d + 1) p)[i] = e a + e b) ∧
      ((c.cfg.perm w)[i] = b →
        (encryptRounds c (d + 1) p)[i] = (e b).rotateLeft ((c.cfg.rot w)[d % 8])[j].val ^^^ (e a + e b))

/-- R82, R84: for every width, round count, key ring, tweak ring and legal tables, and for every sub-key layout,
BlockDecrypt undoes BlockEncrypt, and BlockEncrypt is a bijection on blocks. -/
def Obligations.BlockDecryptInvertsBlockEncrypt : Prop :=
  ∀ (w : BlockWidth) (c : CipherContext w), ConfigLegal c.cfg →
    (∀ p : Block w, blockDecrypt c (blockEncrypt c p) = p) ∧ Function.Bijective (blockEncrypt c)

/-- R90, R121: ENCB with a key writes BLK_OUT[0..n−1], the transform of BLK_IN[0..n−1], and st.err, and nothing else;
without a key it raises NotInitialized (7). -/
def Obligations.EncbWritesTheEncryptedBlock : Prop :=
  ∀ s : State, decode 0x03 = .instr .encb ∧
    (s.keyValid = false → exec .encb s = .next { s with err := 7 }) ∧
    (s.keyValid = true →
      ∃ t, exec .encb s = .next t ∧ t = { s with blkOut := t.blkOut, err := 0 } ∧
        (∀ i (h : i < s.nw.words) (h16 : i < 16),
          t.blkOut[i] = (blockEncrypt s.cipher (firstWords s.nw s.blkIn))[i]) ∧
        (∀ i (h : i < s.nw.words) (h16 : i < 16), (firstWords s.nw s.blkIn)[i] = s.blkIn[i]) ∧
        (∀ i (h16 : i < 16), s.nw.words ≤ i → t.blkOut[i] = s.blkOut[i]))

/-- R91, R121: DECB with a key writes BLK_OUT[0..n−1], the inverse transform of BLK_IN[0..n−1], and st.err, and nothing
else; without a key it raises NotInitialized (7). -/
def Obligations.DecbWritesTheDecryptedBlock : Prop :=
  ∀ s : State, decode 0x04 = .instr .decb ∧
    (s.keyValid = false → exec .decb s = .next { s with err := 7 }) ∧
    (s.keyValid = true →
      ∃ t, exec .decb s = .next t ∧ t = { s with blkOut := t.blkOut, err := 0 } ∧
        (∀ i (h : i < s.nw.words) (h16 : i < 16),
          t.blkOut[i] = (blockDecrypt s.cipher (firstWords s.nw s.blkIn))[i]) ∧
        (∀ i (h16 : i < 16), s.nw.words ≤ i → t.blkOut[i] = s.blkOut[i]))

/-- R82, R91 on the machine: ENCB, then BLK_OUT copied into BLK_IN, then DECB returns the plaintext, at every width,
round count, key and tweak. -/
def Obligations.DecbAfterEncbRestoresTheBlock : Prop :=
  ∀ s : State, ConfigLegal s.cfg → s.keyValid = true →
    ∃ t u, exec .encb s = .next t ∧ exec .decb { t with blkIn := t.blkOut } = .next u ∧ u.err = 0 ∧
      ∀ i (h : i < 16), i < s.nw.words → u.blkOut[i] = s.blkIn[i]

/-! ### Byte packing, padding, the terminator scan -/

/-- R37, R38: StoreWords and LoadWords undo each other in either byte order, and byte j of word i stands at index 8i + j
in the little-endian order. -/
def Obligations.StoreWordsInvertsLoadWords : Prop :=
  ∀ (o : ByteOrder) (n : Nat) (s : List Byte) (w : Vector Word n),
    (s.length = 8 * n → storeWords o (loadWords o s n) = s) ∧
    loadWords o (storeWords o w) n = w ∧ (storeWords o w).length = 8 * n ∧
    ∀ (i j : Nat) (h : i < n), j < 8 →
      (storeWords .little w).getD (8 * i + j) 0 = (w[i]).extractLsb' (8 * j) 8 ∧
      (storeWords .big w).getD (8 * i + j) 0 = (w[i]).extractLsb' (8 * (7 - j)) 8

/-- R101: the padded length is the smallest multiple of B strictly greater than the message length. -/
def Obligations.PaddedLengthIsNextMultiple : Prop :=
  ∀ (B : Nat) (m : List Byte), 0 < B →
    (pad B m).length = (m.length / B + 1) * B ∧ m.length < (pad B m).length ∧
    (pad B m).length ≤ m.length + B ∧
    ∀ k, m.length < k * B → (pad B m).length ≤ k * B

/-- R106, R107: the scan finds the last byte equal to the terminator, index 0 included, and fails exactly when the block
holds none. -/
def Obligations.ScanFindsTheLastTerminator : Prop :=
  ∀ (B : Nat) (buf : List Byte), buf.length = B →
    (∀ k, terminatorScan B buf = some k ↔
      k < B ∧ buf[k]? = some 0xFF ∧ ∀ j, k < j → buf[j]? ≠ some 0xFF) ∧
    (terminatorScan B buf = none ↔ ∀ b ∈ buf, b ≠ 0xFF)

/-- R42: two regions overlap, as ENC and DEC check it, exactly when some address lies in both. -/
def Obligations.OverlapMeansSharedAddress : Prop :=
  ∀ sa sn da dn : Nat,
    Overlap sa sn da dn ↔ ∃ x, (sa ≤ x ∧ x < sa + sn) ∧ (da ≤ x ∧ x < da + dn)

/-! ### ENC and DEC -/

/-- R104, R122, R124: the errors of ENC in their order, each leaving only st.err and DST_LEN changed. -/
def Obligations.EncErrorsInOrder : Prop :=
  ∀ s : State,
    let sn := s.srcLen.toNat; let dc := s.dstCap.toNat
    let fits := s.srcAddr.toNat + sn ≤ 2 ^ 64 ∧ s.dstAddr.toNat + dc ≤ 2 ^ 64
    let room := (sn / s.nw.bytes + 1) * s.nw.bytes ≤ dc
    (s.keyValid = false → exec .enc s = .next { s with err := 7, dstLen := 0 }) ∧
    (s.keyValid = true → ¬fits → exec .enc s = .next { s with err := 9, dstLen := 0 }) ∧
    (s.keyValid = true → fits → ¬room → exec .enc s = .next { s with err := 11, dstLen := 0 }) ∧
    (s.keyValid = true → fits → room → Overlap s.srcAddr.toNat sn s.dstAddr.toNat dc →
      exec .enc s = .next { s with err := 10, dstLen := 0 })

/-- R105, R110, R122, R124: the errors of DEC that precede every memory access, in their order. -/
def Obligations.DecErrorsInOrder : Prop :=
  ∀ s : State,
    let sn := s.srcLen.toNat; let dc := s.dstCap.toNat
    let whole := 0 < sn ∧ sn % s.nw.bytes = 0
    let fits := s.srcAddr.toNat + sn ≤ 2 ^ 64 ∧ s.dstAddr.toNat + dc ≤ 2 ^ 64
    let room := sn - 1 ≤ dc
    (s.keyValid = false → exec .dec s = .next { s with err := 7, dstLen := 0 }) ∧
    (s.keyValid = true → ¬whole → exec .dec s = .next { s with err := 8, dstLen := 0 }) ∧
    (s.keyValid = true → whole → ¬fits → exec .dec s = .next { s with err := 9, dstLen := 0 }) ∧
    (s.keyValid = true → whole → fits → ¬room → exec .dec s = .next { s with err := 11, dstLen := 0 }) ∧
    (s.keyValid = true → whole → fits → room → Overlap s.srcAddr.toNat sn s.dstAddr.toNat dc →
      exec .dec s = .next { s with err := 10, dstLen := 0 })

/-- R45, R134: an ENC or DEC whose checks pass, with an address of its source or destination region in the register
block or in a device region of the platform (log 6), is refused; so the register block is never ordinary memory. -/
def Obligations.DeviceBuffersAreRefused : Prop :=
  ∀ (s : State) (x : Nat),
    let sa := s.srcAddr.toNat; let sn := s.srcLen.toNat; let da := s.dstAddr.toNat; let dc := s.dstCap.toNat
    (sa ≤ x ∧ x < sa + sn) ∨ (da ≤ x ∧ x < da + dc) →
    (s.cfg.coreBase.toNat ≤ x ∧ x < s.cfg.coreBase.toNat + 4096) ∨
      (∃ d ∈ s.cfg.devices, d.base.toNat ≤ x ∧ x < d.base.toNat + d.size) →
    s.keyValid = true → sa + sn ≤ 2 ^ 64 → da + dc ≤ 2 ^ 64 →
    (∀ y, ¬((sa ≤ y ∧ y < sa + sn) ∧ (da ≤ y ∧ y < da + dc))) →
    ((sn / s.nw.bytes + 1) * s.nw.bytes ≤ dc → exec .enc s = .refused .bufferInDevice) ∧
    (0 < sn → sn % s.nw.bytes = 0 → sn - 1 ≤ dc → exec .dec s = .refused .bufferInDevice)

/-- R100, R101, R102, R104: ENC of a message m, when its checks pass, writes the encrypted chunks of Pad(m), in order,
from DST_ADDR on, sets DST_LEN to their length and st.err to 0, and changes no other byte and no other state. -/
def Obligations.EncWritesThePaddedCiphertext : Prop :=
  ∀ s : State, s.nw ≠ .unset → s.mem.wf → EncReady s →
    ∃ t, exec .enc s = .next t ∧
      t = { s with mem := t.mem, dstLen := t.dstLen, err := 0 } ∧
      t.dstLen.toNat = (pad s.nw.bytes (sourceBytes s)).length ∧
      readBytes t.mem s.dstAddr.toNat t.dstLen.toNat
        = mapChunks (encryptBytes s.cipher) s.nw.bytes (pad s.nw.bytes (sourceBytes s)) ∧
      ∀ x, Outside x s.dstAddr.toNat ((s.srcLen.toNat / s.nw.bytes + 1) * s.nw.bytes) →
        t.mem.read x = s.mem.read x

/-- R106, R108, R110: DEC, when its checks pass and the scan of the decrypted last block finds a terminator at ndx,
writes the decrypted bytes before it from DST_ADDR on, sets DST_LEN to their count and st.err to 0, and changes no other
byte and no other state. -/
def Obligations.DecWritesThePlaintext : Prop :=
  ∀ (s : State) (ndx : Nat), s.nw ≠ .unset → s.mem.wf → DecReady s →
    terminatorScan s.nw.bytes ((decryptedBytes s).drop (s.srcLen.toNat - s.nw.bytes)) = some ndx →
    ∃ t, exec .dec s = .next t ∧
      t = { s with mem := t.mem, dstLen := t.dstLen, err := 0 } ∧
      t.dstLen.toNat = s.srcLen.toNat - s.nw.bytes + ndx ∧
      readBytes t.mem s.dstAddr.toNat t.dstLen.toNat = (decryptedBytes s).take t.dstLen.toNat ∧
      ∀ x, Outside x s.dstAddr.toNat (s.srcLen.toNat - s.nw.bytes + ndx) → t.mem.read x = s.mem.read x

/-- R111, R122: DEC, when its checks pass and the decrypted last block holds no terminator, raises NoTerminatorFound (4)
with DST_LEN 0; of memory only the bytes before the last block's place may change, and nothing is said of those. The
count of free bytes drawn is the model's own (log 7). -/
def Obligations.DecWithoutTerminatorFails : Prop :=
  ∀ s : State, s.nw ≠ .unset → s.mem.wf → DecReady s →
    terminatorScan s.nw.bytes ((decryptedBytes s).drop (s.srcLen.toNat - s.nw.bytes)) = none →
    ∃ t, exec .dec s = .next t ∧
      t = { s with mem := t.mem, dstLen := 0, err := 4, freeIdx := t.freeIdx } ∧
      ∀ x, Outside x s.dstAddr.toNat (s.srcLen.toNat - s.nw.bytes) → t.mem.read x = s.mem.read x

/-- R36, R104, R110: ENC and DEC depend on no byte of host memory outside the source region: from two memories that agree
there they end alike, and a byte they leave different in the two is one they do not write. -/
def Obligations.ByteCommandsReadOnlyTheSource : Prop :=
  ∀ (i : Instr) (s t : State) (m : Memory), isBytesCommand i = true → s.nw ≠ .unset → s.mem.wf → m.wf →
    (∀ x, s.srcAddr.toNat ≤ x → x < s.srcAddr.toNat + s.srcLen.toNat → m.read x = s.mem.read x) →
    exec i s = .next t →
    ∃ u, exec i { s with mem := m } = .next u ∧ u = { t with mem := u.mem } ∧
      ∀ x, u.mem.read x = t.mem.read x ∨ (u.mem.read x = m.read x ∧ t.mem.read x = s.mem.read x)

/-- R112: ENC of any message, then DEC of its output under the same key into a fitting, non-overlapping buffer, yields
the message and DST_LEN = len(m): for every width, round count, key, tweak, layout, byte order and legal tables, and for
every message length, 0 and the multiples of B included. -/
def Obligations.DecAfterEncRestoresTheMessage : Prop :=
  ∀ (s t : State) (da dc : Word), ConfigLegal s.cfg → s.nw ≠ .unset → s.mem.wf → EncReady s →
    exec .enc s = .next t →
    DecReady { t with srcAddr := s.dstAddr, srcLen := t.dstLen, dstAddr := da, dstCap := dc } →
    ∃ u, exec .dec { t with srcAddr := s.dstAddr, srcLen := t.dstLen, dstAddr := da, dstCap := dc } = .next u ∧
      u.err = 0 ∧ u.dstLen = s.srcLen ∧ readBytes u.mem da.toNat s.srcLen.toNat = sourceBytes s

/-! ### The whole machine -/

/-- R18, R20, R21, R22: no command writes the staging registers; nor the configuration arguments, the host's queue or
the values already read. -/
def Obligations.NoCommandWritesStagingRegisters : Prop :=
  ∀ (i : Instr) (s t : State), exec i s = .next t →
    t.srcAddr = s.srcAddr ∧ t.srcLen = s.srcLen ∧ t.dstAddr = s.dstAddr ∧ t.dstCap = s.dstCap ∧
    t.keyIn = s.keyIn ∧ t.tweakIn = s.tweakIn ∧ t.blkIn = s.blkIn ∧
    t.cfg = s.cfg ∧ t.hostOps = s.hostOps ∧ t.reads = s.reads

/-- R19, R23, R24, R25, R36, R66: each result has its own writers: the configuration CONFIG and CONFIGR, the rings INIT,
st.key_valid those three, BLK_OUT the block commands, DST_LEN and host memory the byte commands. -/
def Obligations.EveryResultHasItsOwnWriters : Prop :=
  ∀ (i : Instr) (s t : State), exec i s = .next t →
    (isConfigure i = false → t.cfgValid = s.cfgValid ∧ t.nw = s.nw ∧ t.nr = s.nr) ∧
    (isInit i = false → t.keyRing = s.keyRing ∧ t.tweakRing = s.tweakRing) ∧
    (isConfigure i = false → isInit i = false → t.keyValid = s.keyValid) ∧
    (isBlockCommand i = false → t.blkOut = s.blkOut) ∧
    (isBytesCommand i = false → t.dstLen = s.dstLen ∧ t.mem = s.mem ∧ t.freeIdx = s.freeIdx)

/-- R16: ERR is not sticky: what a command does, its own ERR included, does not depend on the ERR before it. -/
def Obligations.ErrIsNotSticky : Prop :=
  ∀ (i : Instr) (s : State) (e : BitVec 4), exec i { s with err := e } = exec i s

/-- R36: CONFIG, CONFIGR, INIT, ENCB and DECB access no host memory: with any other memory they end alike, memory apart. -/
def Obligations.OnlyByteCommandsAccessMemory : Prop :=
  ∀ (i : Instr) (s : State) (m : Memory), isBytesCommand i = false →
    ∃ t, exec i s = .next t ∧ t.mem = s.mem ∧ exec i { s with mem := m } = .next { t with mem := m }

/-- R34, U1: the key ring and the tweak ring cannot be observed while no key is loaded, and the key-ring words above the
parity word never: states that differ only there take steps that differ only there. -/
def Obligations.UnloadedKeyCannotBeObserved : Prop :=
  ∀ s t : State, SameToHost s t → OutcomesRelated SameToHost (step s) (step t)

/-- The invariant holds after reset. -/
def Obligations.ResetMeetsTheInvariant : Prop := State.reset.Inv

/-- R24, R25, R65, R66, U7 and the canonical form of memory: every step from a state that meets the invariant, whatever
host access it takes, keeps it. -/
def Obligations.StepKeepsTheInvariant : Prop :=
  ∀ s t : State, s.Inv → step s = .next t → t.Inv

/-- R10, R53, R134: where the buffers are ordinary memory, EVERY command word, legal or not, completes with a next state,
from every state: no word stops the machine. -/
def Obligations.EveryCommandWordCompletes : Prop :=
  ∀ (v : Word) (s : State) (rest : List HostOp), regionsTouchDevice s = false →
    ∃ t, step { s with hostOps := commandWrite s.cfg v :: rest } = .next t ∧ t.hostOps = rest

/-! ### What the parameters of the platform and of the cipher mean -/

/-- R45, R11: an access or a buffer touches a device, as the host's byte accesses and ENC and DEC check it, exactly when
some address of it lies in the 4096 bytes of the register block or in a device region of the platform (log 6). -/
def Obligations.TouchingADeviceMeansADeviceAddress : Prop :=
  (∀ (c : CoreConfig) (a n : Nat), touchesDevice c a n = true ↔
    ∃ x, (a ≤ x ∧ x < a + n) ∧
      ((c.coreBase.toNat ≤ x ∧ x < c.coreBase.toNat + 4096) ∨
        ∃ d ∈ c.devices, d.base.toNat ≤ x ∧ x < d.base.toNat + d.size)) ∧
  ∀ s : State, regionsTouchDevice s = true ↔
    ∃ x, ((s.srcAddr.toNat ≤ x ∧ x < s.srcAddr.toNat + s.srcLen.toNat) ∨
        (s.dstAddr.toNat ≤ x ∧ x < s.dstAddr.toNat + s.dstCap.toNat)) ∧
      ((s.cfg.coreBase.toNat ≤ x ∧ x < s.cfg.coreBase.toNat + 4096) ∨
        ∃ d ∈ s.cfg.devices, d.base.toNat ≤ x ∧ x < d.base.toNat + d.size)

/-- R84: SUBKEY_LAYOUT can be any layout that adds two tweak-ring words and the counter to the last three words: for any
two functions of s that give tweak-ring indices, and any of the words n−3, n−2, n−1 for each of the three, one value of
the parameter makes every sub-key a block transform uses (s ≤ NR/4, NR below 2^31) the key-ring words plus just those
terms. -/
def Obligations.EveryTweakLayoutCanBeConfigured : Prop :=
  ∀ (f g : Nat → Fin 3) (a b e : Fin 3), ∃ layout : SubkeyLayout,
    ∀ (w : BlockWidth) (c : CipherContext w) (s i : Nat) (h : i < w.words) (hk : (s + i) % (w.words + 1) < 17),
      c.cfg.layout = layout → c.nr < 2 ^ 31 → s ≤ c.nr / 4 →
      (subKey c s)[i] = c.keyRing[(s + i) % (w.words + 1)]
        + (if i + 1 + a.val = w.words then c.tweakRing[f s] else 0)
        + (if i + 1 + b.val = w.words then c.tweakRing[g s] else 0)
        + (if i + 1 + e.val = w.words then BitVec.ofNat 64 s else 0)
end

