-- ==== Sys2Proof/Laws/Memory.lean ====
section
/-! SUPPORT. The laws of host memory: every operation keeps the canonical form, a byte read is the last byte written,
and every other byte is left alone. -/

namespace Sys2Proof.Machine

/-- The addresses of a memory rise strictly: the part of the canonical form that reads depend on. -/
abbrev Memory.sorted (m : Memory) : Prop := m.Pairwise (fun x y => x.1 < y.1)

theorem Memory.read_of_lt {m : Memory} {a : Nat} (h : ∀ c ∈ m, a < c.1) : m.read a = unlistedByte := by
  induction m with
  | nil => rfl
  | cons c rest ih =>
    obtain ⟨k, b⟩ := c
    have hk : a < k := h (k, b) (by simp)
    simp only [Memory.read, if_neg (Nat.ne_of_gt hk)]
    exact ih fun c hc => h c (by simp [hc])

theorem Memory.read_write_other {x a : Nat} (m : Memory) (v : Byte) (h : x ≠ a) :
    (m.write a v).read x = m.read x := by
  induction m with
  | nil =>
    simp only [Memory.write]
    split
    · rfl
    · simp [Memory.read, Ne.symm h]
  | cons c rest ih =>
    obtain ⟨k, b⟩ := c
    simp only [Memory.write]
    split
    · split
      · rfl
      · simp [Memory.read, Ne.symm h]
    · split
      · subst_vars
        split <;> simp [Memory.read, Ne.symm h]
      · simp [Memory.read, ih]

theorem Memory.read_write_same {m : Memory} (hm : m.sorted) (a : Nat) (v : Byte) : (m.write a v).read a = v := by
  induction m with
  | nil =>
    simp only [Memory.write]
    split
    · simp_all [Memory.read]
    · simp [Memory.read]
  | cons c rest ih =>
    obtain ⟨k, b⟩ := c
    obtain ⟨hk, hr⟩ := List.pairwise_cons.mp hm
    simp only [Memory.write]
    split
    · split
      · rw [Memory.read_of_lt]
        · simp_all
        · intro c hc
          rcases List.mem_cons.mp hc with rfl | hc
          · assumption
          · have := hk c hc
            simp only at this
            omega
      · simp [Memory.read]
    · split
      · subst_vars
        split
        · rw [Memory.read_of_lt fun c hc => hk c hc]
          simp_all
        · simp [Memory.read]
      · rename_i hne
        simp only [Memory.read, if_neg (Ne.symm hne)]
        exact ih hr

theorem Memory.mem_write {m : Memory} {a : Nat} {v : Byte} {c : Host.Cell} (h : c ∈ m.write a v) :
    c ∈ m ∨ (c = (a, v) ∧ v ≠ unlistedByte) := by
  induction m with
  | nil =>
    simp only [Memory.write] at h
    split at h <;> simp_all
  | cons d rest ih =>
    obtain ⟨k, b⟩ := d
    simp only [Memory.write] at h
    split at h
    · split at h <;> simp_all
      tauto
    · split at h
      · split at h <;> simp_all
        tauto
      · rcases List.mem_cons.mp h with h | h
        · exact .inl (by simp [h])
        · rcases ih h with h | h
          · exact .inl (by simp [h])
          · exact .inr h

theorem Memory.write_sorted {m : Memory} (hm : m.sorted) (a : Nat) (v : Byte) : (m.write a v).sorted := by
  induction m with
  | nil =>
    simp only [Memory.write]
    split <;> simp
  | cons c rest ih =>
    obtain ⟨k, b⟩ := c
    obtain ⟨hk, hr⟩ := List.pairwise_cons.mp hm
    simp only [Memory.write]
    split
    · split
      · exact hm
      · refine List.pairwise_cons.mpr ⟨fun c hc => ?_, hm⟩
        rcases List.mem_cons.mp hc with rfl | hc
        · assumption
        · have := hk c hc
          simp only at this ⊢
          omega
    · split
      · subst_vars
        split
        · exact hr
        · exact List.pairwise_cons.mpr ⟨hk, hr⟩
      · refine List.pairwise_cons.mpr ⟨fun c hc => ?_, ih hr⟩
        rcases Memory.mem_write hc with hc | ⟨rfl, -⟩
        · exact hk c hc
        · simp only
          omega

/-- A byte store inside the address space keeps the canonical form. -/
theorem Memory.write_wf {m : Memory} (hm : m.wf) {a : Nat} (ha : a < 2 ^ 64) (v : Byte) : (m.write a v).wf := by
  refine ⟨Memory.write_sorted hm.1 a v, fun c hc => ?_⟩
  rcases Memory.mem_write hc with hc | ⟨rfl, hv⟩
  · exact hm.2 c hc
  · exact ⟨ha, hv⟩

theorem writeBytes_sorted {m : Memory} (hm : m.sorted) (a : Nat) (s : List Byte) : (writeBytes m a s).sorted := by
  induction s generalizing m a with
  | nil => exact hm
  | cons b s ih => exact ih (Memory.write_sorted hm a b) (a + 1)

/-- Writing a byte string inside the address space keeps the canonical form. -/
theorem writeBytes_wf {m : Memory} (hm : m.wf) {a : Nat} {s : List Byte} (h : a + s.length ≤ 2 ^ 64) :
    (writeBytes m a s).wf := by
  induction s generalizing m a with
  | nil => exact hm
  | cons b s ih =>
    simp only [List.length_cons] at h
    exact ih (Memory.write_wf hm (by omega) b) (by omega)

/-- Writing a byte string leaves every byte outside it alone. -/
theorem read_writeBytes_outside (m : Memory) {a x : Nat} {s : List Byte} (h : x < a ∨ a + s.length ≤ x) :
    (writeBytes m a s).read x = m.read x := by
  induction s generalizing m a with
  | nil => rfl
  | cons b s ih =>
    simp only [List.length_cons] at h
    rw [writeBytes, ih _ (by omega), Memory.read_write_other _ _ (by omega)]

/-- A byte written as part of a byte string reads back. -/
theorem read_writeBytes_inside {m : Memory} (hm : m.sorted) (a : Nat) {s : List Byte} {k : Nat} (h : k < s.length) :
    (writeBytes m a s).read (a + k) = s[k] := by
  induction s generalizing m a k with
  | nil => simp at h
  | cons b s ih =>
    rw [writeBytes]
    cases k with
    | zero => rw [read_writeBytes_outside _ (.inl (by omega)), Nat.add_zero, Memory.read_write_same hm]; rfl
    | succ k =>
      have := ih (Memory.write_sorted hm a b) (a + 1) (k := k) (by simpa using h)
      rw [show a + (k + 1) = a + 1 + k by omega, this]
      rfl

@[simp] theorem readBytes_length (m : Memory) (a n : Nat) : (readBytes m a n).length = n := by simp [readBytes]

@[simp] theorem readBytes_getElem (m : Memory) (a n k : Nat) (h : k < (readBytes m a n).length) :
    (readBytes m a n)[k] = m.read (a + k) := by simp [readBytes]

/-- Memories that agree on a range have the same byte string there. -/
theorem readBytes_congr {m m' : Memory} {a n : Nat} (h : ∀ x, a ≤ x → x < a + n → m.read x = m'.read x) :
    readBytes m a n = readBytes m' a n := by
  refine List.ext_getElem (by simp) fun k h1 h2 => ?_
  simp only [readBytes_length] at h1
  simpa using h (a + k) (by omega) (by omega)

/-- A byte string reads back as it was written. -/
theorem readBytes_writeBytes {m : Memory} (hm : m.sorted) (a : Nat) (s : List Byte) :
    readBytes (writeBytes m a s) a s.length = s := by
  refine List.ext_getElem (by simp) fun k h1 h2 => ?_
  rw [readBytes_getElem, read_writeBytes_inside hm a h2]

/-- A byte string is the byte strings of its two parts. -/
theorem readBytes_append (m : Memory) (a n k : Nat) :
    readBytes m a (n + k) = readBytes m a n ++ readBytes m (a + n) k := by
  simp [readBytes, List.range_add, Function.comp_def, Nat.add_assoc]

@[simp] theorem freeBytes_length (i n : Nat) : (freeBytes i n).length = n := by simp [freeBytes]

end Sys2Proof.Machine
end

