-- ==== Sys2Proof/Laws/Chunks.lean ====
section
/-! SUPPORT. Byte strings processed block by block: the block loop of ENC and DEC against `mapChunks`, the lengths of
packed words, and what the terminator scan answers. -/

namespace Sys2Proof.Machine

/-! ### `mapChunks` -/

theorem mapChunks_nil (f : List Byte → List Byte) (B : Nat) : mapChunks f B [] = [] := by simp [mapChunks]

/-- The first block, then the rest. -/
theorem mapChunks_cons (f : List Byte → List Byte) {B : Nat} (hB : 0 < B) {b : List Byte} (hb : b.length = B)
    (s : List Byte) : mapChunks f B (b ++ s) = f b ++ mapChunks f B s := by
  have hlen : (b ++ s).length / B = s.length / B + 1 := by
    rw [List.length_append, hb, Nat.add_comm, Nat.add_div_right _ hB]
  rw [mapChunks, hlen, List.range_succ_eq_map, List.flatMap_cons, List.flatMap_map, mapChunks]
  congr 1
  · simp [← hb]
  · refine List.flatMap_congr fun k _ => ?_
    rw [Nat.succ_mul, Nat.add_comm, ← List.drop_drop, ← hb, List.drop_left]

/-- One block. -/
theorem mapChunks_one (f : List Byte → List Byte) {B : Nat} (hB : 0 < B) {b : List Byte} (hb : b.length = B) :
    mapChunks f B b = f b := by
  have := mapChunks_cons f hB hb []
  simpa [mapChunks_nil] using this

/-- Whole blocks, then the rest. -/
theorem mapChunks_append (f : List Byte → List Byte) {B : Nat} (hB : 0 < B) :
    ∀ (k : Nat) (s t : List Byte), s.length = k * B → mapChunks f B (s ++ t) = mapChunks f B s ++ mapChunks f B t
  | 0, s, t, h => by
    have : s = [] := List.length_eq_zero_iff.mp (by simpa using h)
    simp [this, mapChunks_nil]
  | k + 1, s, t, h => by
    have hs : s = s.take B ++ s.drop B := (List.take_append_drop B s).symm
    have h1 : (s.take B).length = B := by rw [List.length_take, h, Nat.succ_mul]; omega
    have h2 : (s.drop B).length = k * B := by rw [List.length_drop, h, Nat.succ_mul]; omega
    rw [hs, List.append_assoc, mapChunks_cons f hB h1, mapChunks_cons f hB h1, mapChunks_append f hB k _ t h2,
      List.append_assoc]

/-- Block-wise processing keeps the length of a string of whole blocks. -/
theorem mapChunks_length {f : List Byte → List Byte} {B : Nat} (hB : 0 < B)
    (hf : ∀ b, (f b).length = B) : ∀ (k : Nat) (s : List Byte), s.length = k * B → (mapChunks f B s).length = k * B
  | 0, s, h => by
    have : s = [] := List.length_eq_zero_iff.mp (by simpa using h)
    simp [this, mapChunks_nil]
  | k + 1, s, h => by
    have hs : s = s.take B ++ s.drop B := (List.take_append_drop B s).symm
    have h1 : (s.take B).length = B := by rw [List.length_take, h, Nat.succ_mul]; omega
    have h2 : (s.drop B).length = k * B := by rw [List.length_drop, h, Nat.succ_mul]; omega
    rw [hs, mapChunks_cons f hB h1, List.length_append, hf, mapChunks_length hB hf k _ h2, Nat.succ_mul]
    omega

/-- Undoing a block-wise process block by block. -/
theorem mapChunks_inverse {f g : List Byte → List Byte} {B : Nat} (hB : 0 < B) (hf : ∀ b, (f b).length = B)
    (hg : ∀ b, b.length = B → g (f b) = b) :
    ∀ (k : Nat) (s : List Byte), s.length = k * B → mapChunks g B (mapChunks f B s) = s
  | 0, s, h => by
    have : s = [] := List.length_eq_zero_iff.mp (by simpa using h)
    simp [this, mapChunks_nil]
  | k + 1, s, h => by
    have hs : s = s.take B ++ s.drop B := (List.take_append_drop B s).symm
    have h1 : (s.take B).length = B := by rw [List.length_take, h, Nat.succ_mul]; omega
    have h2 : (s.drop B).length = k * B := by rw [List.length_drop, h, Nat.succ_mul]; omega
    rw [hs, mapChunks_cons f hB h1, mapChunks_cons g hB (hf _), hg _ h1, mapChunks_inverse hB hf hg k _ h2]

/-! ### The block loop -/

theorem transformBlocks_sorted {f : List Byte → List Byte} {B : Nat} :
    ∀ (count src dst : Nat) {m : Memory}, m.sorted → (transformBlocks f B count src dst m).sorted
  | 0, _, _, _, hm => hm
  | count + 1, _, _, _, hm => transformBlocks_sorted count _ _ (writeBytes_sorted hm _ _)

/-- The block loop keeps the canonical form where its destination lies in the address space. -/
theorem transformBlocks_wf {f : List Byte → List Byte} {B : Nat} (hf : ∀ b, (f b).length = B) :
    ∀ (count src dst : Nat) {m : Memory}, m.wf → dst + count * B ≤ 2 ^ 64 →
      (transformBlocks f B count src dst m).wf
  | 0, _, _, _, hm, _ => hm
  | count + 1, src, dst, m, hm, h => by
    rw [Nat.succ_mul] at h
    exact transformBlocks_wf hf count _ _ (writeBytes_wf hm (by rw [hf]; omega)) (by omega)

/-- The block loop leaves every byte outside its destination alone. -/
theorem read_transformBlocks_outside {f : List Byte → List Byte} {B : Nat} (hf : ∀ b, (f b).length = B) :
    ∀ (count src dst : Nat) (m : Memory) {x : Nat}, x < dst ∨ dst + count * B ≤ x →
      (transformBlocks f B count src dst m).read x = m.read x
  | 0, _, _, _, _, _ => rfl
  | count + 1, src, dst, m, x, h => by
    rw [Nat.succ_mul] at h
    rw [transformBlocks, read_transformBlocks_outside hf count _ _ _ (by omega),
      read_writeBytes_outside _ (by rw [hf]; omega)]

/-- The block loop leaves the block-wise image of its source in its destination, where the two do not overlap. -/
theorem readBytes_transformBlocks {f : List Byte → List Byte} {B : Nat} (hB : 0 < B)
    (hf : ∀ b, (f b).length = B) :
    ∀ (count src dst : Nat) {m : Memory}, m.sorted → (src + count * B ≤ dst ∨ dst + count * B ≤ src) →
      readBytes (transformBlocks f B count src dst m) dst (count * B) = mapChunks f B (readBytes m src (count * B))
  | 0, src, dst, m, _, _ => by simp [readBytes, mapChunks_nil]
  | count + 1, src, dst, m, hm, h => by
    rw [Nat.succ_mul] at h ⊢
    rw [Nat.add_comm (count * B) B, readBytes_append, readBytes_append,
      mapChunks_cons f hB (readBytes_length _ _ _), transformBlocks]
    congr 1
    · have hl : (f (readBytes m src B)).length = B := hf _
      rw [readBytes_congr (m' := writeBytes m dst (f (readBytes m src B))) fun x h1 h2 =>
        read_transformBlocks_outside hf count _ _ _ (.inl (by omega))]
      conv_lhs => rw [← hl]
      rw [hl]
      have := readBytes_writeBytes hm dst (f (readBytes m src B))
      rwa [hl] at this
    · rw [readBytes_transformBlocks hB hf count (src + B) (dst + B) (writeBytes_sorted hm _ _) (by omega)]
      congr 1
      refine readBytes_congr fun x h1 h2 => read_writeBytes_outside _ ?_
      rw [hf]
      omega

/-! ### Packed words -/

@[simp] theorem bytesLittle_length (w : Word) : (bytesLittle w).length = 8 := by simp [bytesLittle]

@[simp] theorem wordBytes_length (o : ByteOrder) (w : Word) : (wordBytes o w).length = 8 := by
  cases o <;> simp [wordBytes]

@[simp] theorem storeWords_length {n : Nat} (o : ByteOrder) (w : Vector Word n) : (storeWords o w).length = 8 * n := by
  simp [storeWords, List.length_flatMap, Nat.mul_comm]

@[simp] theorem encryptBytes_length {w : BlockWidth} (c : CipherContext w) (b : List Byte) : (encryptBytes c b).length = w.bytes := by
  simp [encryptBytes, BlockWidth.bytes]

@[simp] theorem decryptBytes_length {w : BlockWidth} (c : CipherContext w) (b : List Byte) : (decryptBytes c b).length = w.bytes := by
  simp [decryptBytes, BlockWidth.bytes]

theorem lastChunk_length {B : Nat} {t : List Byte} (h : t.length < B) : (lastChunk B t).length = B := by
  simp [lastChunk]
  omega

/-! ### The terminator scan -/

/-- What the scan of the indices below `n` answers. -/
theorem scanBelow_spec (buf : List Byte) (n : Nat) :
    match scanBelow buf n with
    | none => ∀ j, j < n → buf.getD j 0 ≠ terminator
    | some k => k < n ∧ buf.getD k 0 = terminator ∧ ∀ j, k < j → j < n → buf.getD j 0 ≠ terminator := by
  induction n with
  | zero => simp [scanBelow]
  | succ n ih =>
    rw [scanBelow]
    split
    · rename_i h
      split at h
      · simp at h
      · rw [h] at ih
        intro j hj
        rcases Nat.lt_succ_iff_lt_or_eq.mp hj with hj | rfl
        · exact ih j hj
        · assumption
    · rename_i k h
      split at h
      · simp only [Option.some.injEq] at h
        subst h
        exact ⟨by omega, by assumption, fun j h1 h2 => by omega⟩
      · rw [h] at ih
        refine ⟨by omega, ih.2.1, fun j h1 h2 => ?_⟩
        rcases Nat.lt_succ_iff_lt_or_eq.mp h2 with hj | rfl
        · exact ih.2.2 j h1 hj
        · assumption

/-! ### Packing, one word at a time, and the parts of a padded message -/

theorem packLittle_bytesLittle (w : Word) : packLittle (bytesLittle w) = w := by
  unfold packLittle bytesLittle
  ext i hi
  simp only [List.range, List.range.loop, List.map, List.getD_cons_zero, List.getD_cons_succ,
    BitVec.getElem_eq_testBit_toNat, BitVec.testBit_toNat, BitVec.getLsbD_or, BitVec.getLsbD_shiftLeft,
    BitVec.truncate_eq_setWidth, BitVec.getLsbD_setWidth, BitVec.getLsbD_extractLsb']
  interval_cases i <;> simp

/-- The bytes of word i of a stored block stand at index 8i. -/
theorem storeWords_slice {n : Nat} (o : ByteOrder) (w : Vector Word n) :
    ∀ i (h : i < n), ((storeWords o w).drop (8 * i)).take 8 = wordBytes o w[i] := by
  obtain ⟨⟨l⟩, hl⟩ := w
  simp only [storeWords, Vector.toList, Vector.getElem_mk] at *
  subst hl
  intro i h
  simp only [List.size_toArray] at h
  induction l generalizing i with
  | nil => simp at h
  | cons a l ih =>
    cases i with
    | zero => simp
    | succ i =>
      rw [List.flatMap_cons, show 8 * (i + 1) = 8 + 8 * i by omega, ← List.drop_drop,
        List.drop_left' (wordBytes_length o a)]
      have := ih i (by simpa using h) (by simpa using h)
      simpa using this

/-- Pad(m) is the whole blocks of m and then the terminator-bearing chunk (R102, R103). -/
theorem pad_eq (B : Nat) (m : List Byte) :
    pad B m = m.take (m.length / B * B) ++ lastChunk B (m.drop (m.length / B * B)) := by
  have h : B - 1 - m.length % B = B - 1 - (m.drop (m.length / B * B)).length := by
    rw [List.length_drop]
    have := Nat.div_add_mod' m.length B
    congr 1; omega
  unfold pad lastChunk
  rw [h]
  simp only [← List.append_assoc, List.take_append_drop]

end Sys2Proof.Machine
end

