-- ==== Sys2Proof/Laws/Cipher.lean ====
section
/-! SUPPORT. The small lemmas of the Cipher Core's definitions: one word of each block operation, and the search for an
inverse table entry. -/

namespace Sys2Proof.Machine

/-! ### Register operands -/

theorem firstWords_getElem (w : BlockWidth) (v : Vector Word 16) {i : Nat} (h : i < w.words) :
    (firstWords w v)[i] = v[i]'(Nat.lt_of_lt_of_le h w.words_le) := by simp [firstWords]

theorem withBlock_getElem_low {w : BlockWidth} (b : Block w) (old : Vector Word 16) {i : Nat} (h : i < w.words)
    (h16 : i < 16) : (withBlock b old)[i] = b[i] := by simp [withBlock, h]

theorem withBlock_getElem_high {w : BlockWidth} (b : Block w) (old : Vector Word 16) {i : Nat} (h : w.words ≤ i)
    (h16 : i < 16) : (withBlock b old)[i] = old[i] := by simp [withBlock, Nat.not_lt.mpr h]

/-- Reading back a block written to the sixteen registers. -/
theorem firstWords_withBlock {w : BlockWidth} (b : Block w) (old : Vector Word 16) :
    firstWords w (withBlock b old) = b :=
  Vector.ext fun i hi => by rw [firstWords_getElem w _ hi, withBlock_getElem_low b old hi]

/-! ### Rings -/

theorem keyRingOf_getElem_key {w : BlockWidth} (key : Block w) (old : Vector Word 17) {i : Nat} (h : i < w.words)
    (h17 : i < 17) : (keyRingOf key old)[i] = key[i] := by simp [keyRingOf, h]

theorem keyRingOf_getElem_parity {w : BlockWidth} (key : Block w) (old : Vector Word 17) (h17 : w.words < 17) :
    (keyRingOf key old)[w.words] = parityWord key.toList := by simp [keyRingOf]

theorem keyRingOf_getElem_above {w : BlockWidth} (key : Block w) (old : Vector Word 17) {i : Nat} (h : w.words < i)
    (h17 : i < 17) : (keyRingOf key old)[i] = old[i] := by
  simp [keyRingOf, Nat.not_lt.mpr (Nat.le_of_lt h), Nat.ne_of_gt h]

/-- The parity word is C240 XOR all key words (R64). -/
theorem parityWord_eq (key : List Word) : parityWord key = c240 ^^^ xorWords key := by
  have h : ∀ (a : Word) (l : List Word), l.foldl (· ^^^ ·) a = a ^^^ xorWords l := by
    intro a l
    induction l generalizing a with
    | nil => simp [xorWords]
    | cons b l ih => simp [ih, xorWords, BitVec.xor_assoc]
  exact h c240 key

/-! ### Block operations, word by word -/

theorem addWords_getElem {w : BlockWidth} (v k : Block w) {i : Nat} (h : i < w.words) :
    (addWords v k)[i] = v[i] + k[i] := by simp [addWords]

theorem subWords_getElem {w : BlockWidth} (v k : Block w) {i : Nat} (h : i < w.words) :
    (subWords v k)[i] = v[i] - k[i] := by simp [subWords]

/-- Subtracting a sub-key undoes adding it, modulo 2^64. -/
theorem subWords_addWords {w : BlockWidth} (v k : Block w) : subWords (addWords v k) k = v :=
  Vector.ext fun i hi => by rw [subWords_getElem _ _ hi, addWords_getElem _ _ hi, BitVec.add_sub_cancel]

theorem mapPairs_getElem_even {w : BlockWidth} (f : Word → Word → Nat → Word × Word) (row : Vector (Fin 64) w.pairs)
    (b : Block w) {j : Nat} (hj : j < w.pairs) :
    (mapPairs f row b)[2 * j]'(BlockWidth.even_lt hj) =
      (f (b[2 * j]'(BlockWidth.even_lt hj)) (b[2 * j + 1]'(BlockWidth.odd_lt hj)) row[j]).1 := by
  have h1 : 2 * j / 2 = j := by omega
  have h2 : 2 * j % 2 = 0 := by omega
  simp [mapPairs, h1, h2]

theorem mapPairs_getElem_odd {w : BlockWidth} (f : Word → Word → Nat → Word × Word) (row : Vector (Fin 64) w.pairs)
    (b : Block w) {j : Nat} (hj : j < w.pairs) :
    (mapPairs f row b)[2 * j + 1]'(BlockWidth.odd_lt hj) =
      (f (b[2 * j]'(BlockWidth.even_lt hj)) (b[2 * j + 1]'(BlockWidth.odd_lt hj)) row[j]).2 := by
  have h1 : (2 * j + 1) / 2 = j := by omega
  have h2 : (2 * j + 1) % 2 = 1 := by omega
  simp [mapPairs, h1, h2]

/-- Two blocks are equal when their pairs are. -/
theorem block_ext_pairs {w : BlockWidth} {a b : Block w}
    (h : ∀ j (hj : j < w.pairs), a[2 * j]'(BlockWidth.even_lt hj) = b[2 * j]'(BlockWidth.even_lt hj) ∧
      a[2 * j + 1]'(BlockWidth.odd_lt hj) = b[2 * j + 1]'(BlockWidth.odd_lt hj)) : a = b := by
  refine Vector.ext fun i hi => ?_
  obtain ⟨h0, h1⟩ := h (i / 2) (BlockWidth.half_lt hi)
  rcases Nat.mod_two_eq_zero_or_one i with hm | hm
  · have : 2 * (i / 2) = i := by omega
    simpa only [this] using h0
  · have : 2 * (i / 2) + 1 = i := by omega
    simpa only [this] using h1

/-! ### Tables -/

theorem perm_isPermutation {c : CoreConfig} (h : ConfigLegal c) (w : BlockWidth) : IsPermutation (c.perm w) := by
  cases w with
  | unset => exact List.nodup_nil
  | words4 => exact h.1
  | words8 => exact h.2.1
  | words16 => exact h.2.2.1

/-- A permutation table has no entry twice. -/
theorem IsPermutation.injective {n : Nat} {p : Vector (Fin n) n} (h : IsPermutation p) :
    Function.Injective fun i : Fin n => p[i] := by
  intro i j hij
  have hg := List.nodup_iff_injective_get.mp h
  have := @hg ⟨i, by simp⟩ ⟨j, by simp⟩ (by simpa using hij)
  simpa [Fin.ext_iff] using this

/-- The search of `inverseAt` finds the index it looks for, in a permutation table. -/
theorem inverseAt_spec {n : Nat} {p : Vector (Fin n) n} (h : IsPermutation p) (i : Fin n) : p[inverseAt p i] = i := by
  obtain ⟨j, hj⟩ := Finite.injective_iff_surjective.mp h.injective i
  have hs : ((List.finRange n).find? fun j => p[j] = i).isSome := by
    rw [List.find?_isSome]
    exact ⟨j, by simp, by simpa using hj⟩
  obtain ⟨k, hk⟩ := Option.isSome_iff_exists.mp hs
  have hik : inverseAt p i = k := by unfold inverseAt; rw [hk]; rfl
  simp only [hik]
  simpa using List.find?_some hk

/-! ### The terms of SUBKEY_LAYOUT -/

@[simp] theorem sumTerms_nil (ring : Vector Word 3) (s : Nat) : sumTerms [] ring s = 0 := rfl

@[simp] theorem sumTerms_cons (t : SubkeyTerm) (ts : List SubkeyTerm) (ring : Vector Word 3) (s : Nat) :
    sumTerms (t :: ts) ring s = subkeyTerm t ring s + sumTerms ts ring s := by simp [sumTerms]

@[simp] theorem sumTerms_append (ts us : List SubkeyTerm) (ring : Vector Word 3) (s : Nat) :
    sumTerms (ts ++ us) ring s = sumTerms ts ring s + sumTerms us ring s := by simp [sumTerms]

@[simp] theorem subkeyTerm_counter (ring : Vector Word 3) (s : Nat) :
    subkeyTerm .counter ring s = BitVec.ofNat 64 s := rfl

@[simp] theorem subkeyTerm_tweak (indices : List (Fin 3)) (ring : Vector Word 3) (s : Nat) :
    subkeyTerm (.tweak indices) ring s = ring[tweakIndex indices s] := rfl

/-- A table of the first N values of a function is the function below N. -/
theorem tweakIndex_map_range (f : Nat → Fin 3) {N s : Nat} (h : s < N) :
    tweakIndex ((List.range N).map f) s = f s := by
  simp [tweakIndex, Nat.mod_eq_of_lt h, List.getD_eq_getElem?_getD, h]

/-- The decided indices of the words n−3 and n−2 (R79). -/
theorem tweakIndex_default (s : Nat) :
    (tweakIndex [0, 1, 2] s).val = s % 3 ∧ (tweakIndex [1, 2, 0] s).val = (s + 1) % 3 := by
  have h : s % 3 = 0 ∨ s % 3 = 1 ∨ s % 3 = 2 := by omega
  unfold tweakIndex
  rcases h with h | h | h <;> simp [h] <;> omega

end Sys2Proof.Machine
end

