-- ==== Sys2Proof/Laws/State.lean ====
section
/-! SUPPORT. One lemma per field per state update (Sys2Proof/Machine/Ops.lean, writeReg of Operands.lean), so that no
later proof unfolds a record update. -/

namespace Sys2Proof.Machine

@[simp] theorem raiseError_srcAddr (b : Bool) (e : ErrorCode) (s : State) : (raiseError b e s).srcAddr = s.srcAddr := rfl
@[simp] theorem raiseError_srcLen (b : Bool) (e : ErrorCode) (s : State) : (raiseError b e s).srcLen = s.srcLen := rfl
@[simp] theorem raiseError_dstAddr (b : Bool) (e : ErrorCode) (s : State) : (raiseError b e s).dstAddr = s.dstAddr := rfl
@[simp] theorem raiseError_dstCap (b : Bool) (e : ErrorCode) (s : State) : (raiseError b e s).dstCap = s.dstCap := rfl
@[simp] theorem raiseError_dstLen (b : Bool) (e : ErrorCode) (s : State) : (raiseError b e s).dstLen = if b then 0 else s.dstLen := rfl
@[simp] theorem raiseError_keyIn (b : Bool) (e : ErrorCode) (s : State) : (raiseError b e s).keyIn = s.keyIn := rfl
@[simp] theorem raiseError_tweakIn (b : Bool) (e : ErrorCode) (s : State) : (raiseError b e s).tweakIn = s.tweakIn := rfl
@[simp] theorem raiseError_blkIn (b : Bool) (e : ErrorCode) (s : State) : (raiseError b e s).blkIn = s.blkIn := rfl
@[simp] theorem raiseError_blkOut (b : Bool) (e : ErrorCode) (s : State) : (raiseError b e s).blkOut = s.blkOut := rfl
@[simp] theorem raiseError_cfgValid (b : Bool) (e : ErrorCode) (s : State) : (raiseError b e s).cfgValid = s.cfgValid := rfl
@[simp] theorem raiseError_nw (b : Bool) (e : ErrorCode) (s : State) : (raiseError b e s).nw = s.nw := rfl
@[simp] theorem raiseError_nr (b : Bool) (e : ErrorCode) (s : State) : (raiseError b e s).nr = s.nr := rfl
@[simp] theorem raiseError_keyValid (b : Bool) (e : ErrorCode) (s : State) : (raiseError b e s).keyValid = s.keyValid := rfl
@[simp] theorem raiseError_keyRing (b : Bool) (e : ErrorCode) (s : State) : (raiseError b e s).keyRing = s.keyRing := rfl
@[simp] theorem raiseError_tweakRing (b : Bool) (e : ErrorCode) (s : State) : (raiseError b e s).tweakRing = s.tweakRing := rfl
@[simp] theorem raiseError_err (b : Bool) (e : ErrorCode) (s : State) : (raiseError b e s).err = errorBits e := rfl
@[simp] theorem raiseError_mem (b : Bool) (e : ErrorCode) (s : State) : (raiseError b e s).mem = s.mem := rfl
@[simp] theorem raiseError_cfg (b : Bool) (e : ErrorCode) (s : State) : (raiseError b e s).cfg = s.cfg := rfl
@[simp] theorem raiseError_hostOps (b : Bool) (e : ErrorCode) (s : State) : (raiseError b e s).hostOps = s.hostOps := rfl
@[simp] theorem raiseError_reads (b : Bool) (e : ErrorCode) (s : State) : (raiseError b e s).reads = s.reads := rfl
@[simp] theorem raiseError_freeIdx (b : Bool) (e : ErrorCode) (s : State) : (raiseError b e s).freeIdx = s.freeIdx := rfl

@[simp] theorem applyConfig_srcAddr (n : BlockWidth) (r : BitVec 32) (s : State) : (applyConfig n r s).srcAddr = s.srcAddr := rfl
@[simp] theorem applyConfig_srcLen (n : BlockWidth) (r : BitVec 32) (s : State) : (applyConfig n r s).srcLen = s.srcLen := rfl
@[simp] theorem applyConfig_dstAddr (n : BlockWidth) (r : BitVec 32) (s : State) : (applyConfig n r s).dstAddr = s.dstAddr := rfl
@[simp] theorem applyConfig_dstCap (n : BlockWidth) (r : BitVec 32) (s : State) : (applyConfig n r s).dstCap = s.dstCap := rfl
@[simp] theorem applyConfig_dstLen (n : BlockWidth) (r : BitVec 32) (s : State) : (applyConfig n r s).dstLen = s.dstLen := rfl
@[simp] theorem applyConfig_keyIn (n : BlockWidth) (r : BitVec 32) (s : State) : (applyConfig n r s).keyIn = s.keyIn := rfl
@[simp] theorem applyConfig_tweakIn (n : BlockWidth) (r : BitVec 32) (s : State) : (applyConfig n r s).tweakIn = s.tweakIn := rfl
@[simp] theorem applyConfig_blkIn (n : BlockWidth) (r : BitVec 32) (s : State) : (applyConfig n r s).blkIn = s.blkIn := rfl
@[simp] theorem applyConfig_blkOut (n : BlockWidth) (r : BitVec 32) (s : State) : (applyConfig n r s).blkOut = s.blkOut := rfl
@[simp] theorem applyConfig_cfgValid (n : BlockWidth) (r : BitVec 32) (s : State) : (applyConfig n r s).cfgValid = true := rfl
@[simp] theorem applyConfig_nw (n : BlockWidth) (r : BitVec 32) (s : State) : (applyConfig n r s).nw = n := rfl
@[simp] theorem applyConfig_nr (n : BlockWidth) (r : BitVec 32) (s : State) : (applyConfig n r s).nr = r := rfl
@[simp] theorem applyConfig_keyValid (n : BlockWidth) (r : BitVec 32) (s : State) : (applyConfig n r s).keyValid = false := rfl
@[simp] theorem applyConfig_keyRing (n : BlockWidth) (r : BitVec 32) (s : State) : (applyConfig n r s).keyRing = s.keyRing := rfl
@[simp] theorem applyConfig_tweakRing (n : BlockWidth) (r : BitVec 32) (s : State) : (applyConfig n r s).tweakRing = s.tweakRing := rfl
@[simp] theorem applyConfig_err (n : BlockWidth) (r : BitVec 32) (s : State) : (applyConfig n r s).err = 0 := rfl
@[simp] theorem applyConfig_mem (n : BlockWidth) (r : BitVec 32) (s : State) : (applyConfig n r s).mem = s.mem := rfl
@[simp] theorem applyConfig_cfg (n : BlockWidth) (r : BitVec 32) (s : State) : (applyConfig n r s).cfg = s.cfg := rfl
@[simp] theorem applyConfig_hostOps (n : BlockWidth) (r : BitVec 32) (s : State) : (applyConfig n r s).hostOps = s.hostOps := rfl
@[simp] theorem applyConfig_reads (n : BlockWidth) (r : BitVec 32) (s : State) : (applyConfig n r s).reads = s.reads := rfl
@[simp] theorem applyConfig_freeIdx (n : BlockWidth) (r : BitVec 32) (s : State) : (applyConfig n r s).freeIdx = s.freeIdx := rfl

@[simp] theorem loadKey_srcAddr (k : Vector Word 17) (t : Vector Word 3) (s : State) : (loadKey k t s).srcAddr = s.srcAddr := rfl
@[simp] theorem loadKey_srcLen (k : Vector Word 17) (t : Vector Word 3) (s : State) : (loadKey k t s).srcLen = s.srcLen := rfl
@[simp] theorem loadKey_dstAddr (k : Vector Word 17) (t : Vector Word 3) (s : State) : (loadKey k t s).dstAddr = s.dstAddr := rfl
@[simp] theorem loadKey_dstCap (k : Vector Word 17) (t : Vector Word 3) (s : State) : (loadKey k t s).dstCap = s.dstCap := rfl
@[simp] theorem loadKey_dstLen (k : Vector Word 17) (t : Vector Word 3) (s : State) : (loadKey k t s).dstLen = s.dstLen := rfl
@[simp] theorem loadKey_keyIn (k : Vector Word 17) (t : Vector Word 3) (s : State) : (loadKey k t s).keyIn = s.keyIn := rfl
@[simp] theorem loadKey_tweakIn (k : Vector Word 17) (t : Vector Word 3) (s : State) : (loadKey k t s).tweakIn = s.tweakIn := rfl
@[simp] theorem loadKey_blkIn (k : Vector Word 17) (t : Vector Word 3) (s : State) : (loadKey k t s).blkIn = s.blkIn := rfl
@[simp] theorem loadKey_blkOut (k : Vector Word 17) (t : Vector Word 3) (s : State) : (loadKey k t s).blkOut = s.blkOut := rfl
@[simp] theorem loadKey_cfgValid (k : Vector Word 17) (t : Vector Word 3) (s : State) : (loadKey k t s).cfgValid = s.cfgValid := rfl
@[simp] theorem loadKey_nw (k : Vector Word 17) (t : Vector Word 3) (s : State) : (loadKey k t s).nw = s.nw := rfl
@[simp] theorem loadKey_nr (k : Vector Word 17) (t : Vector Word 3) (s : State) : (loadKey k t s).nr = s.nr := rfl
@[simp] theorem loadKey_keyValid (k : Vector Word 17) (t : Vector Word 3) (s : State) : (loadKey k t s).keyValid = true := rfl
@[simp] theorem loadKey_keyRing (k : Vector Word 17) (t : Vector Word 3) (s : State) : (loadKey k t s).keyRing = k := rfl
@[simp] theorem loadKey_tweakRing (k : Vector Word 17) (t : Vector Word 3) (s : State) : (loadKey k t s).tweakRing = t := rfl
@[simp] theorem loadKey_err (k : Vector Word 17) (t : Vector Word 3) (s : State) : (loadKey k t s).err = 0 := rfl
@[simp] theorem loadKey_mem (k : Vector Word 17) (t : Vector Word 3) (s : State) : (loadKey k t s).mem = s.mem := rfl
@[simp] theorem loadKey_cfg (k : Vector Word 17) (t : Vector Word 3) (s : State) : (loadKey k t s).cfg = s.cfg := rfl
@[simp] theorem loadKey_hostOps (k : Vector Word 17) (t : Vector Word 3) (s : State) : (loadKey k t s).hostOps = s.hostOps := rfl
@[simp] theorem loadKey_reads (k : Vector Word 17) (t : Vector Word 3) (s : State) : (loadKey k t s).reads = s.reads := rfl
@[simp] theorem loadKey_freeIdx (k : Vector Word 17) (t : Vector Word 3) (s : State) : (loadKey k t s).freeIdx = s.freeIdx := rfl

@[simp] theorem putBlock_srcAddr (o : Vector Word 16) (s : State) : (putBlock o s).srcAddr = s.srcAddr := rfl
@[simp] theorem putBlock_srcLen (o : Vector Word 16) (s : State) : (putBlock o s).srcLen = s.srcLen := rfl
@[simp] theorem putBlock_dstAddr (o : Vector Word 16) (s : State) : (putBlock o s).dstAddr = s.dstAddr := rfl
@[simp] theorem putBlock_dstCap (o : Vector Word 16) (s : State) : (putBlock o s).dstCap = s.dstCap := rfl
@[simp] theorem putBlock_dstLen (o : Vector Word 16) (s : State) : (putBlock o s).dstLen = s.dstLen := rfl
@[simp] theorem putBlock_keyIn (o : Vector Word 16) (s : State) : (putBlock o s).keyIn = s.keyIn := rfl
@[simp] theorem putBlock_tweakIn (o : Vector Word 16) (s : State) : (putBlock o s).tweakIn = s.tweakIn := rfl
@[simp] theorem putBlock_blkIn (o : Vector Word 16) (s : State) : (putBlock o s).blkIn = s.blkIn := rfl
@[simp] theorem putBlock_blkOut (o : Vector Word 16) (s : State) : (putBlock o s).blkOut = o := rfl
@[simp] theorem putBlock_cfgValid (o : Vector Word 16) (s : State) : (putBlock o s).cfgValid = s.cfgValid := rfl
@[simp] theorem putBlock_nw (o : Vector Word 16) (s : State) : (putBlock o s).nw = s.nw := rfl
@[simp] theorem putBlock_nr (o : Vector Word 16) (s : State) : (putBlock o s).nr = s.nr := rfl
@[simp] theorem putBlock_keyValid (o : Vector Word 16) (s : State) : (putBlock o s).keyValid = s.keyValid := rfl
@[simp] theorem putBlock_keyRing (o : Vector Word 16) (s : State) : (putBlock o s).keyRing = s.keyRing := rfl
@[simp] theorem putBlock_tweakRing (o : Vector Word 16) (s : State) : (putBlock o s).tweakRing = s.tweakRing := rfl
@[simp] theorem putBlock_err (o : Vector Word 16) (s : State) : (putBlock o s).err = 0 := rfl
@[simp] theorem putBlock_mem (o : Vector Word 16) (s : State) : (putBlock o s).mem = s.mem := rfl
@[simp] theorem putBlock_cfg (o : Vector Word 16) (s : State) : (putBlock o s).cfg = s.cfg := rfl
@[simp] theorem putBlock_hostOps (o : Vector Word 16) (s : State) : (putBlock o s).hostOps = s.hostOps := rfl
@[simp] theorem putBlock_reads (o : Vector Word 16) (s : State) : (putBlock o s).reads = s.reads := rfl
@[simp] theorem putBlock_freeIdx (o : Vector Word 16) (s : State) : (putBlock o s).freeIdx = s.freeIdx := rfl

@[simp] theorem finishBytes_srcAddr (m : Memory) (n : Nat) (s : State) : (finishBytes m n s).srcAddr = s.srcAddr := rfl
@[simp] theorem finishBytes_srcLen (m : Memory) (n : Nat) (s : State) : (finishBytes m n s).srcLen = s.srcLen := rfl
@[simp] theorem finishBytes_dstAddr (m : Memory) (n : Nat) (s : State) : (finishBytes m n s).dstAddr = s.dstAddr := rfl
@[simp] theorem finishBytes_dstCap (m : Memory) (n : Nat) (s : State) : (finishBytes m n s).dstCap = s.dstCap := rfl
@[simp] theorem finishBytes_dstLen (m : Memory) (n : Nat) (s : State) : (finishBytes m n s).dstLen = BitVec.ofNat 64 n := rfl
@[simp] theorem finishBytes_keyIn (m : Memory) (n : Nat) (s : State) : (finishBytes m n s).keyIn = s.keyIn := rfl
@[simp] theorem finishBytes_tweakIn (m : Memory) (n : Nat) (s : State) : (finishBytes m n s).tweakIn = s.tweakIn := rfl
@[simp] theorem finishBytes_blkIn (m : Memory) (n : Nat) (s : State) : (finishBytes m n s).blkIn = s.blkIn := rfl
@[simp] theorem finishBytes_blkOut (m : Memory) (n : Nat) (s : State) : (finishBytes m n s).blkOut = s.blkOut := rfl
@[simp] theorem finishBytes_cfgValid (m : Memory) (n : Nat) (s : State) : (finishBytes m n s).cfgValid = s.cfgValid := rfl
@[simp] theorem finishBytes_nw (m : Memory) (n : Nat) (s : State) : (finishBytes m n s).nw = s.nw := rfl
@[simp] theorem finishBytes_nr (m : Memory) (n : Nat) (s : State) : (finishBytes m n s).nr = s.nr := rfl
@[simp] theorem finishBytes_keyValid (m : Memory) (n : Nat) (s : State) : (finishBytes m n s).keyValid = s.keyValid := rfl
@[simp] theorem finishBytes_keyRing (m : Memory) (n : Nat) (s : State) : (finishBytes m n s).keyRing = s.keyRing := rfl
@[simp] theorem finishBytes_tweakRing (m : Memory) (n : Nat) (s : State) : (finishBytes m n s).tweakRing = s.tweakRing := rfl
@[simp] theorem finishBytes_err (m : Memory) (n : Nat) (s : State) : (finishBytes m n s).err = 0 := rfl
@[simp] theorem finishBytes_mem (m : Memory) (n : Nat) (s : State) : (finishBytes m n s).mem = m := rfl
@[simp] theorem finishBytes_cfg (m : Memory) (n : Nat) (s : State) : (finishBytes m n s).cfg = s.cfg := rfl
@[simp] theorem finishBytes_hostOps (m : Memory) (n : Nat) (s : State) : (finishBytes m n s).hostOps = s.hostOps := rfl
@[simp] theorem finishBytes_reads (m : Memory) (n : Nat) (s : State) : (finishBytes m n s).reads = s.reads := rfl
@[simp] theorem finishBytes_freeIdx (m : Memory) (n : Nat) (s : State) : (finishBytes m n s).freeIdx = s.freeIdx := rfl

@[simp] theorem failDecode_srcAddr (a n : Nat) (s : State) : (failDecode a n s).srcAddr = s.srcAddr := rfl
@[simp] theorem failDecode_srcLen (a n : Nat) (s : State) : (failDecode a n s).srcLen = s.srcLen := rfl
@[simp] theorem failDecode_dstAddr (a n : Nat) (s : State) : (failDecode a n s).dstAddr = s.dstAddr := rfl
@[simp] theorem failDecode_dstCap (a n : Nat) (s : State) : (failDecode a n s).dstCap = s.dstCap := rfl
@[simp] theorem failDecode_dstLen (a n : Nat) (s : State) : (failDecode a n s).dstLen = 0 := rfl
@[simp] theorem failDecode_keyIn (a n : Nat) (s : State) : (failDecode a n s).keyIn = s.keyIn := rfl
@[simp] theorem failDecode_tweakIn (a n : Nat) (s : State) : (failDecode a n s).tweakIn = s.tweakIn := rfl
@[simp] theorem failDecode_blkIn (a n : Nat) (s : State) : (failDecode a n s).blkIn = s.blkIn := rfl
@[simp] theorem failDecode_blkOut (a n : Nat) (s : State) : (failDecode a n s).blkOut = s.blkOut := rfl
@[simp] theorem failDecode_cfgValid (a n : Nat) (s : State) : (failDecode a n s).cfgValid = s.cfgValid := rfl
@[simp] theorem failDecode_nw (a n : Nat) (s : State) : (failDecode a n s).nw = s.nw := rfl
@[simp] theorem failDecode_nr (a n : Nat) (s : State) : (failDecode a n s).nr = s.nr := rfl
@[simp] theorem failDecode_keyValid (a n : Nat) (s : State) : (failDecode a n s).keyValid = s.keyValid := rfl
@[simp] theorem failDecode_keyRing (a n : Nat) (s : State) : (failDecode a n s).keyRing = s.keyRing := rfl
@[simp] theorem failDecode_tweakRing (a n : Nat) (s : State) : (failDecode a n s).tweakRing = s.tweakRing := rfl
@[simp] theorem failDecode_err (a n : Nat) (s : State) : (failDecode a n s).err = 4 := rfl
@[simp] theorem failDecode_mem (a n : Nat) (s : State) : (failDecode a n s).mem = writeBytes s.mem a (freeBytes s.freeIdx n) := rfl
@[simp] theorem failDecode_cfg (a n : Nat) (s : State) : (failDecode a n s).cfg = s.cfg := rfl
@[simp] theorem failDecode_hostOps (a n : Nat) (s : State) : (failDecode a n s).hostOps = s.hostOps := rfl
@[simp] theorem failDecode_reads (a n : Nat) (s : State) : (failDecode a n s).reads = s.reads := rfl
@[simp] theorem failDecode_freeIdx (a n : Nat) (s : State) : (failDecode a n s).freeIdx = s.freeIdx + n := rfl

@[simp] theorem storeByte_srcAddr (a : Addr) (x : Byte) (s : State) : (storeByte a x s).srcAddr = s.srcAddr := rfl
@[simp] theorem storeByte_srcLen (a : Addr) (x : Byte) (s : State) : (storeByte a x s).srcLen = s.srcLen := rfl
@[simp] theorem storeByte_dstAddr (a : Addr) (x : Byte) (s : State) : (storeByte a x s).dstAddr = s.dstAddr := rfl
@[simp] theorem storeByte_dstCap (a : Addr) (x : Byte) (s : State) : (storeByte a x s).dstCap = s.dstCap := rfl
@[simp] theorem storeByte_dstLen (a : Addr) (x : Byte) (s : State) : (storeByte a x s).dstLen = s.dstLen := rfl
@[simp] theorem storeByte_keyIn (a : Addr) (x : Byte) (s : State) : (storeByte a x s).keyIn = s.keyIn := rfl
@[simp] theorem storeByte_tweakIn (a : Addr) (x : Byte) (s : State) : (storeByte a x s).tweakIn = s.tweakIn := rfl
@[simp] theorem storeByte_blkIn (a : Addr) (x : Byte) (s : State) : (storeByte a x s).blkIn = s.blkIn := rfl
@[simp] theorem storeByte_blkOut (a : Addr) (x : Byte) (s : State) : (storeByte a x s).blkOut = s.blkOut := rfl
@[simp] theorem storeByte_cfgValid (a : Addr) (x : Byte) (s : State) : (storeByte a x s).cfgValid = s.cfgValid := rfl
@[simp] theorem storeByte_nw (a : Addr) (x : Byte) (s : State) : (storeByte a x s).nw = s.nw := rfl
@[simp] theorem storeByte_nr (a : Addr) (x : Byte) (s : State) : (storeByte a x s).nr = s.nr := rfl
@[simp] theorem storeByte_keyValid (a : Addr) (x : Byte) (s : State) : (storeByte a x s).keyValid = s.keyValid := rfl
@[simp] theorem storeByte_keyRing (a : Addr) (x : Byte) (s : State) : (storeByte a x s).keyRing = s.keyRing := rfl
@[simp] theorem storeByte_tweakRing (a : Addr) (x : Byte) (s : State) : (storeByte a x s).tweakRing = s.tweakRing := rfl
@[simp] theorem storeByte_err (a : Addr) (x : Byte) (s : State) : (storeByte a x s).err = s.err := rfl
@[simp] theorem storeByte_mem (a : Addr) (x : Byte) (s : State) : (storeByte a x s).mem = s.mem.write a.toNat x := rfl
@[simp] theorem storeByte_cfg (a : Addr) (x : Byte) (s : State) : (storeByte a x s).cfg = s.cfg := rfl
@[simp] theorem storeByte_hostOps (a : Addr) (x : Byte) (s : State) : (storeByte a x s).hostOps = s.hostOps := rfl
@[simp] theorem storeByte_reads (a : Addr) (x : Byte) (s : State) : (storeByte a x s).reads = s.reads := rfl
@[simp] theorem storeByte_freeIdx (a : Addr) (x : Byte) (s : State) : (storeByte a x s).freeIdx = s.freeIdx := rfl

@[simp] theorem logRead_srcAddr (v : Word) (s : State) : (logRead v s).srcAddr = s.srcAddr := rfl
@[simp] theorem logRead_srcLen (v : Word) (s : State) : (logRead v s).srcLen = s.srcLen := rfl
@[simp] theorem logRead_dstAddr (v : Word) (s : State) : (logRead v s).dstAddr = s.dstAddr := rfl
@[simp] theorem logRead_dstCap (v : Word) (s : State) : (logRead v s).dstCap = s.dstCap := rfl
@[simp] theorem logRead_dstLen (v : Word) (s : State) : (logRead v s).dstLen = s.dstLen := rfl
@[simp] theorem logRead_keyIn (v : Word) (s : State) : (logRead v s).keyIn = s.keyIn := rfl
@[simp] theorem logRead_tweakIn (v : Word) (s : State) : (logRead v s).tweakIn = s.tweakIn := rfl
@[simp] theorem logRead_blkIn (v : Word) (s : State) : (logRead v s).blkIn = s.blkIn := rfl
@[simp] theorem logRead_blkOut (v : Word) (s : State) : (logRead v s).blkOut = s.blkOut := rfl
@[simp] theorem logRead_cfgValid (v : Word) (s : State) : (logRead v s).cfgValid = s.cfgValid := rfl
@[simp] theorem logRead_nw (v : Word) (s : State) : (logRead v s).nw = s.nw := rfl
@[simp] theorem logRead_nr (v : Word) (s : State) : (logRead v s).nr = s.nr := rfl
@[simp] theorem logRead_keyValid (v : Word) (s : State) : (logRead v s).keyValid = s.keyValid := rfl
@[simp] theorem logRead_keyRing (v : Word) (s : State) : (logRead v s).keyRing = s.keyRing := rfl
@[simp] theorem logRead_tweakRing (v : Word) (s : State) : (logRead v s).tweakRing = s.tweakRing := rfl
@[simp] theorem logRead_err (v : Word) (s : State) : (logRead v s).err = s.err := rfl
@[simp] theorem logRead_mem (v : Word) (s : State) : (logRead v s).mem = s.mem := rfl
@[simp] theorem logRead_cfg (v : Word) (s : State) : (logRead v s).cfg = s.cfg := rfl
@[simp] theorem logRead_hostOps (v : Word) (s : State) : (logRead v s).hostOps = s.hostOps := rfl
@[simp] theorem logRead_reads (v : Word) (s : State) : (logRead v s).reads = s.reads ++ [v] := rfl
@[simp] theorem logRead_freeIdx (v : Word) (s : State) : (logRead v s).freeIdx = s.freeIdx := rfl

@[simp] theorem resetCore_srcAddr (s : State) : (resetCore s).srcAddr = State.reset.srcAddr := rfl
@[simp] theorem resetCore_srcLen (s : State) : (resetCore s).srcLen = State.reset.srcLen := rfl
@[simp] theorem resetCore_dstAddr (s : State) : (resetCore s).dstAddr = State.reset.dstAddr := rfl
@[simp] theorem resetCore_dstCap (s : State) : (resetCore s).dstCap = State.reset.dstCap := rfl
@[simp] theorem resetCore_dstLen (s : State) : (resetCore s).dstLen = State.reset.dstLen := rfl
@[simp] theorem resetCore_keyIn (s : State) : (resetCore s).keyIn = State.reset.keyIn := rfl
@[simp] theorem resetCore_tweakIn (s : State) : (resetCore s).tweakIn = State.reset.tweakIn := rfl
@[simp] theorem resetCore_blkIn (s : State) : (resetCore s).blkIn = State.reset.blkIn := rfl
@[simp] theorem resetCore_blkOut (s : State) : (resetCore s).blkOut = State.reset.blkOut := rfl
@[simp] theorem resetCore_cfgValid (s : State) : (resetCore s).cfgValid = State.reset.cfgValid := rfl
@[simp] theorem resetCore_nw (s : State) : (resetCore s).nw = State.reset.nw := rfl
@[simp] theorem resetCore_nr (s : State) : (resetCore s).nr = State.reset.nr := rfl
@[simp] theorem resetCore_keyValid (s : State) : (resetCore s).keyValid = State.reset.keyValid := rfl
@[simp] theorem resetCore_keyRing (s : State) : (resetCore s).keyRing = State.reset.keyRing := rfl
@[simp] theorem resetCore_tweakRing (s : State) : (resetCore s).tweakRing = State.reset.tweakRing := rfl
@[simp] theorem resetCore_err (s : State) : (resetCore s).err = State.reset.err := rfl
@[simp] theorem resetCore_mem (s : State) : (resetCore s).mem = s.mem := rfl
@[simp] theorem resetCore_cfg (s : State) : (resetCore s).cfg = s.cfg := rfl
@[simp] theorem resetCore_hostOps (s : State) : (resetCore s).hostOps = s.hostOps := rfl
@[simp] theorem resetCore_reads (s : State) : (resetCore s).reads = s.reads := rfl
@[simp] theorem resetCore_freeIdx (s : State) : (resetCore s).freeIdx = s.freeIdx := rfl

@[simp] theorem writeReg_dstLen (r : HostReg) (v : Word) (s : State) : (writeReg r v s).dstLen = s.dstLen := by cases r <;> rfl
@[simp] theorem writeReg_blkOut (r : HostReg) (v : Word) (s : State) : (writeReg r v s).blkOut = s.blkOut := by cases r <;> rfl
@[simp] theorem writeReg_cfgValid (r : HostReg) (v : Word) (s : State) : (writeReg r v s).cfgValid = s.cfgValid := by cases r <;> rfl
@[simp] theorem writeReg_nw (r : HostReg) (v : Word) (s : State) : (writeReg r v s).nw = s.nw := by cases r <;> rfl
@[simp] theorem writeReg_nr (r : HostReg) (v : Word) (s : State) : (writeReg r v s).nr = s.nr := by cases r <;> rfl
@[simp] theorem writeReg_keyValid (r : HostReg) (v : Word) (s : State) : (writeReg r v s).keyValid = s.keyValid := by cases r <;> rfl
@[simp] theorem writeReg_keyRing (r : HostReg) (v : Word) (s : State) : (writeReg r v s).keyRing = s.keyRing := by cases r <;> rfl
@[simp] theorem writeReg_tweakRing (r : HostReg) (v : Word) (s : State) : (writeReg r v s).tweakRing = s.tweakRing := by cases r <;> rfl
@[simp] theorem writeReg_err (r : HostReg) (v : Word) (s : State) : (writeReg r v s).err = s.err := by cases r <;> rfl
@[simp] theorem writeReg_mem (r : HostReg) (v : Word) (s : State) : (writeReg r v s).mem = s.mem := by cases r <;> rfl
@[simp] theorem writeReg_cfg (r : HostReg) (v : Word) (s : State) : (writeReg r v s).cfg = s.cfg := by cases r <;> rfl
@[simp] theorem writeReg_hostOps (r : HostReg) (v : Word) (s : State) : (writeReg r v s).hostOps = s.hostOps := by cases r <;> rfl
@[simp] theorem writeReg_reads (r : HostReg) (v : Word) (s : State) : (writeReg r v s).reads = s.reads := by cases r <;> rfl
@[simp] theorem writeReg_freeIdx (r : HostReg) (v : Word) (s : State) : (writeReg r v s).freeIdx = s.freeIdx := by cases r <;> rfl

end Sys2Proof.Machine
end

