-- ==== Sys2Proof/Laws/Commands.lean ====
section
/-! SUPPORT. Once for each command and for the step: everything it can do. Later proofs cite these instead of unfolding
a meaning. -/

namespace Sys2Proof.Machine

theorem ofBits_eq_some {bits : Nat} {n : BlockWidth} (h : BlockWidth.ofBits bits = some n) :
    (bits = 256 ∧ n = .words4) ∨ (bits = 512 ∧ n = .words8) ∨ (bits = 1024 ∧ n = .words16) := by
  simp only [BlockWidth.ofBits] at h
  split at h
  · simp_all
  · split at h
    · simp_all
    · split at h <;> simp_all

/-- What CONFIG can do. -/
theorem execConfig_cases (bits : Nat) (s : State) :
    (BlockWidth.ofBits bits = none ∧ execConfig bits s = .next (raiseError false .invalidBlockSize s)) ∨
    ∃ n, BlockWidth.ofBits bits = some n ∧ execConfig bits s = .next (applyConfig n n.defaultRounds s) := by
  unfold execConfig
  cases BlockWidth.ofBits bits with
  | none => exact .inl ⟨rfl, rfl⟩
  | some n => exact .inr ⟨n, rfl, rfl⟩

/-- What CONFIGR can do. -/
theorem execConfigr_cases (bits : Nat) (rounds : Int) (s : State) :
    (BlockWidth.ofBits bits = none ∧ execConfigr bits rounds s = .next (raiseError false .invalidBlockSize s)) ∨
    (∃ n, BlockWidth.ofBits bits = some n ∧ (rounds ≤ 0 ∨ rounds % 4 ≠ 0) ∧
      execConfigr bits rounds s = .next (raiseError false .invalidRoundCount s)) ∨
    ∃ n, BlockWidth.ofBits bits = some n ∧ ¬(rounds ≤ 0 ∨ rounds % 4 ≠ 0) ∧
      execConfigr bits rounds s = .next (applyConfig n (BitVec.ofInt 32 rounds) s) := by
  unfold execConfigr
  cases BlockWidth.ofBits bits with
  | none => exact .inl ⟨rfl, rfl⟩
  | some n =>
    by_cases h : rounds ≤ 0 ∨ rounds % 4 ≠ 0
    · exact .inr (.inl ⟨n, rfl, h, if_pos h⟩)
    · exact .inr (.inr ⟨n, rfl, h, if_neg h⟩)

/-- The rings INIT loads (R63 to R65). -/
def loadedKey (s : State) : State :=
  loadKey (keyRingOf (firstWords s.nw s.keyIn) s.keyRing) (tweakRingOf s.tweakIn[0] s.tweakIn[1]) s

/-- What INIT can do. -/
theorem execInit_cases (keylen : Nat) (s : State) :
    (s.cfgValid = false ∧ execInit keylen s = .next (raiseError false .notConfigured s)) ∨
    (s.cfgValid = true ∧ (¬(keylen = 4 ∨ keylen = 8 ∨ keylen = 16) ∨ keylen ≠ s.nw.words) ∧
      execInit keylen s = .next (raiseError false .invalidKeySize s)) ∨
    (s.cfgValid = true ∧ (keylen = 4 ∨ keylen = 8 ∨ keylen = 16) ∧ keylen = s.nw.words ∧
      execInit keylen s = .next (loadedKey s)) := by
  unfold execInit
  cases hc : s.cfgValid with
  | false => exact .inl ⟨rfl, if_pos rfl⟩
  | true =>
    refine .inr ?_
    rw [if_neg (by decide)]
    by_cases h1 : keylen = 4 ∨ keylen = 8 ∨ keylen = 16
    · rw [if_neg (not_not.mpr h1)]
      by_cases h2 : keylen = s.nw.words
      · exact .inr ⟨rfl, h1, h2, if_neg (not_not.mpr h2)⟩
      · exact .inl ⟨rfl, .inr h2, if_pos h2⟩
    · exact .inl ⟨rfl, .inl h1, if_pos h1⟩

/-- What a block command can do. -/
theorem blockCommand_cases (f : {w : BlockWidth} → CipherContext w → Block w → Block w) (s : State) :
    (s.keyValid = false ∧ blockCommand f s = .next (raiseError false .notInitialized s)) ∨
    (s.keyValid = true ∧
      blockCommand f s = .next (putBlock (withBlock (f s.cipher (firstWords s.nw s.blkIn)) s.blkOut) s)) := by
  unfold blockCommand
  cases s.keyValid with
  | false => exact .inl ⟨rfl, if_pos rfl⟩
  | true => exact .inr ⟨rfl, if_neg (by decide)⟩

/-- The checks of ENC pass exactly when it is ready, device regions apart. -/
theorem encCheck_eq_none_iff (s : State) :
    encCheck s = none ↔ s.keyValid = true ∧ regionsFit s ∧ encLength s ≤ s.dstCap.toNat ∧ ¬regionsOverlap s := by
  unfold encCheck
  by_cases h1 : s.keyValid = false
  · simp [h1]
  · by_cases h2 : regionsFit s
    · by_cases h3 : encLength s ≤ s.dstCap.toNat
      · by_cases h4 : regionsOverlap s <;> simp_rw [if_neg h1, if_neg (not_not.mpr h2), if_neg (not_lt.mpr h3)]
        · rw [if_pos h4]
          simp [h4]
        · rw [if_neg h4]
          exact iff_of_true rfl ⟨by simpa using h1, h2, h3, h4⟩
      · simp [h1, h3, not_not.mpr h2, not_le.mp h3]
    · simp_rw [if_neg h1, if_pos h2]
      exact iff_of_false (by simp) fun h => h2 h.2.1

/-- The checks of DEC pass exactly when it is ready, device regions apart. -/
theorem decCheck_eq_none_iff (s : State) :
    decCheck s = none ↔ s.keyValid = true ∧ 0 < s.srcLen.toNat ∧ s.srcLen.toNat % s.nw.bytes = 0 ∧ regionsFit s ∧
      s.srcLen.toNat - 1 ≤ s.dstCap.toNat ∧ ¬regionsOverlap s := by
  unfold decCheck
  by_cases h1 : s.keyValid = false
  · simp [h1]
  · by_cases h2 : s.srcLen.toNat = 0 ∨ s.srcLen.toNat % s.nw.bytes ≠ 0
    · simp_rw [if_neg h1, if_pos h2]
      exact iff_of_false (by simp) fun h => by omega
    · by_cases h3 : regionsFit s
      · by_cases h4 : s.dstCap.toNat < s.srcLen.toNat - 1
        · simp_rw [if_neg h1, if_neg h2, if_neg (not_not.mpr h3), if_pos h4]
          exact iff_of_false (by simp) fun h => by omega
        · by_cases h5 : regionsOverlap s <;>
            simp_rw [if_neg h1, if_neg h2, if_neg (not_not.mpr h3), if_neg h4]
          · rw [if_pos h5]
            exact iff_of_false (by simp) fun h => h.2.2.2.2.2 h5
          · rw [if_neg h5]
            exact iff_of_true rfl ⟨by simpa using h1, by omega, by omega, h3, by omega, h5⟩
      · simp_rw [if_neg h1, if_neg h2, if_pos h3]
        exact iff_of_false (by simp) fun h => h3 h.2.2.2.1

/-- What ENC can do. -/
theorem execEnc_cases (s : State) :
    (∃ e, encCheck s = some e ∧ execEnc s = .next (raiseError true e s)) ∨
    (encCheck s = none ∧ regionsTouchDevice s = true ∧ execEnc s = .refused .bufferInDevice) ∨
    (encCheck s = none ∧ regionsTouchDevice s = false ∧
      execEnc s = .next (finishBytes (encMemory s) (encLength s) s)) := by
  unfold execEnc
  cases encCheck s with
  | some e => exact .inl ⟨e, rfl, rfl⟩
  | none =>
    refine .inr ?_
    cases regionsTouchDevice s with
    | true => exact .inl ⟨rfl, rfl, if_pos rfl⟩
    | false => exact .inr ⟨rfl, rfl, if_neg (by decide)⟩

/-- What DEC can do. -/
theorem execDec_cases (s : State) :
    (∃ e, decCheck s = some e ∧ execDec s = .next (raiseError true e s)) ∨
    (decCheck s = none ∧ regionsTouchDevice s = true ∧ execDec s = .refused .bufferInDevice) ∨
    (decCheck s = none ∧ regionsTouchDevice s = false ∧ terminatorScan s.nw.bytes (decLast s) = none ∧
      execDec s = .next (failDecode s.dstAddr.toNat (decFull s) s)) ∨
    ∃ ndx, decCheck s = none ∧ regionsTouchDevice s = false ∧ terminatorScan s.nw.bytes (decLast s) = some ndx ∧
      execDec s = .next (finishBytes
        (writeBytes (decFullMemory s) (s.dstAddr.toNat + decFull s) ((decLast s).take ndx)) (decFull s + ndx) s) := by
  unfold execDec
  cases decCheck s with
  | some e => exact .inl ⟨e, rfl, rfl⟩
  | none =>
    refine .inr ?_
    cases regionsTouchDevice s with
    | true => exact .inl ⟨rfl, rfl, if_pos rfl⟩
    | false =>
      refine .inr ?_
      cases h : terminatorScan s.nw.bytes (decLast s) with
      | none => exact .inl ⟨rfl, rfl, rfl, by simp⟩
      | some ndx => exact .inr ⟨ndx, rfl, rfl, rfl, by simp⟩

/-- What a command can do when it ends in a next state: raise an error, or one state update of its own kind. -/
theorem exec_next {i : Instr} {s t : State} (h : exec i s = .next t) :
    (∃ b e, t = raiseError b e s ∧ (b = true ↔ isBytesCommand i = true)) ∨
    (isConfigure i = true ∧ ∃ n r, t = applyConfig n r s) ∨
    (isInit i = true ∧ t = loadedKey s) ∨
    (isBlockCommand i = true ∧ ∃ o, t = putBlock o s) ∨
    (isBytesCommand i = true ∧ ((∃ m n, t = finishBytes m n s) ∨ ∃ a n, t = failDecode a n s)) := by
  cases i with
  | config b =>
    rcases execConfig_cases b s with ⟨_, h1⟩ | ⟨_, _, h1⟩ <;>
      (simp only [exec] at h; rw [h1] at h; cases h)
    · exact .inl ⟨_, _, rfl, by simp [isBytesCommand]⟩
    · exact .inr (.inl ⟨rfl, _, _, rfl⟩)
  | configr b r =>
    rcases execConfigr_cases b r s with ⟨_, h1⟩ | ⟨_, _, _, h1⟩ | ⟨_, _, _, h1⟩ <;>
      (simp only [exec] at h; rw [h1] at h; cases h)
    · exact .inl ⟨_, _, rfl, by simp [isBytesCommand]⟩
    · exact .inl ⟨_, _, rfl, by simp [isBytesCommand]⟩
    · exact .inr (.inl ⟨rfl, _, _, rfl⟩)
  | init b =>
    rcases execInit_cases b s with ⟨_, h1⟩ | ⟨_, _, h1⟩ | ⟨_, _, _, h1⟩ <;>
      (simp only [exec] at h; rw [h1] at h; cases h)
    · exact .inl ⟨_, _, rfl, by simp [isBytesCommand]⟩
    · exact .inl ⟨_, _, rfl, by simp [isBytesCommand]⟩
    · exact .inr (.inr (.inl ⟨rfl, rfl⟩))
  | encb =>
    rcases blockCommand_cases blockEncrypt s with ⟨_, h1⟩ | ⟨_, h1⟩ <;>
      (simp only [exec, execEncb] at h; rw [h1] at h; cases h)
    · exact .inl ⟨_, _, rfl, by simp [isBytesCommand]⟩
    · exact .inr (.inr (.inr (.inl ⟨rfl, _, rfl⟩)))
  | decb =>
    rcases blockCommand_cases blockDecrypt s with ⟨_, h1⟩ | ⟨_, h1⟩ <;>
      (simp only [exec, execDecb] at h; rw [h1] at h; cases h)
    · exact .inl ⟨_, _, rfl, by simp [isBytesCommand]⟩
    · exact .inr (.inr (.inr (.inl ⟨rfl, _, rfl⟩)))
  | enc =>
    rcases execEnc_cases s with ⟨_, _, h1⟩ | ⟨_, _, h1⟩ | ⟨_, _, h1⟩ <;>
      (simp only [exec] at h; rw [h1] at h; cases h)
    · exact .inl ⟨_, _, rfl, by simp [isBytesCommand]⟩
    · exact .inr (.inr (.inr (.inr ⟨rfl, .inl ⟨_, _, rfl⟩⟩)))
  | dec =>
    rcases execDec_cases s with ⟨_, _, h1⟩ | ⟨_, _, h1⟩ | ⟨_, _, _, h1⟩ | ⟨_, _, _, _, h1⟩ <;>
      (simp only [exec] at h; rw [h1] at h; cases h)
    · exact .inl ⟨_, _, rfl, by simp [isBytesCommand]⟩
    · exact .inr (.inr (.inr (.inr ⟨rfl, .inr ⟨_, _, rfl⟩⟩)))
    · exact .inr (.inr (.inr (.inr ⟨rfl, .inl ⟨_, _, rfl⟩⟩)))

/-- A host write to REG[CMD] is a register access in place, whatever CORE_BASE is. -/
theorem registerAt_coreBase (c : CoreConfig) : registerAt c c.coreBase .b64 = some .cmd := by
  simp [registerAt, hostReg]

/-- A host write to REG[CMD] runs the command word. -/
theorem hostAccess_commandWrite (c : CoreConfig) (v : Word) (s : State) (h : s.cfg = c) :
    hostAccess (commandWrite c v) s = runCommand v s := by
  subst h
  simp [hostAccess, commandWrite, registerAt_coreBase, hostWrite]

theorem step_cons {s : State} {op : HostOp} {rest : List HostOp} (h : s.hostOps = op :: rest) :
    step s = hostAccess op { s with hostOps := rest } := by simp [step, h]

/-- The same with the queue written out. -/
theorem step_queued (s : State) (op : HostOp) (rest : List HostOp) :
    step { s with hostOps := op :: rest } = hostAccess op { s with hostOps := rest } := rfl

/-- A queued command word runs on the state with it taken off the queue. -/
theorem step_command (s : State) (v : Word) (rest : List HostOp) :
    step { s with hostOps := commandWrite s.cfg v :: rest } = runCommand v { s with hostOps := rest } :=
  hostAccess_commandWrite s.cfg v { s with hostOps := rest } rfl

theorem step_nil {s : State} (h : s.hostOps = []) : step s = .next s := by simp [step, h]

/-- What a host access can do when it ends in a next state. -/
theorem hostAccess_next {op : HostOp} {s t : State} (h : hostAccess op s = .next t) :
    (∃ addr width v, op = .regWrite addr width v ∧ registerAt s.cfg addr width = some .cmd ∧ runCommand v s = .next t) ∨
    (∃ addr width v r, op = .regWrite addr width v ∧ registerAt s.cfg addr width = some r ∧ r ≠ .cmd ∧
      t = writeReg r v s) ∨
    (∃ v, t = logRead v s) ∨
    (∃ a b, op = .memStore a b ∧ touchesDevice s.cfg a.toNat 1 = false ∧ t = storeByte a b s) ∨
    (op = .reset ∧ t = resetCore s) := by
  cases op with
  | regWrite addr width v =>
    simp only [hostAccess] at h
    split at h
    · simp at h
    · rename_i r hr
      simp only [hostWrite] at h
      split at h
      · subst_vars
        exact .inl ⟨addr, width, v, rfl, hr, h⟩
      · rename_i hne
        simp only [Host.Outcome.next.injEq] at h
        exact .inr (.inl ⟨addr, width, v, r, rfl, hr, hne, h.symm⟩)
  | regRead addr width =>
    simp only [hostAccess] at h
    split at h
    · simp at h
    · simp only [Host.Outcome.next.injEq] at h
      exact .inr (.inr (.inl ⟨_, h.symm⟩))
  | memStore a b =>
    simp only [hostAccess] at h
    split at h
    · simp at h
    · rename_i hd
      simp only [Host.Outcome.next.injEq] at h
      exact .inr (.inr (.inr (.inl ⟨a, b, rfl, by simpa using hd, h.symm⟩)))
  | memLoad a =>
    simp only [hostAccess] at h
    split at h
    · simp at h
    · simp only [Host.Outcome.next.injEq] at h
      exact .inr (.inr (.inl ⟨_, h.symm⟩))
  | reset =>
    simp only [hostAccess, Host.Outcome.next.injEq] at h
    exact .inr (.inr (.inr (.inr ⟨rfl, h.symm⟩)))

/-- A command word runs a decoded command or raises IllegalCommand. -/
theorem runCommand_cases (v : Word) (s : State) :
    (∃ i, decode v = .instr i ∧ runCommand v s = exec i s) ∨
    (∃ why, decode v = .illegal why ∧ runCommand v s = .next (raiseError false .illegalCommand s)) := by
  unfold runCommand
  cases h : decode v with
  | instr i => exact .inl ⟨i, rfl, rfl⟩
  | illegal why => exact .inr ⟨why, rfl, rfl⟩

end Sys2Proof.Machine
end

