-- ==== Sys2Proof/Laws/Encoding.lean ====
section
/-! SUPPORT. The command word as its five fields (spec/30_encoding.md R50): a word is made of its fields, each field of
a made word is the one given, and what the encoder makes. -/

namespace Sys2Proof

/-- The word with the given fields (R50). -/
def ofFields (op : BitVec 8) (rx : BitVec 1) (rsv : BitVec 7) (a16 : BitVec 16) (a32 : BitVec 32) : Word :=
  a32 ++ (a16 ++ (rsv ++ (rx ++ op)))

@[simp] theorem fieldOp_ofFields (op : BitVec 8) (rx : BitVec 1) (rsv : BitVec 7) (a16 : BitVec 16) (a32 : BitVec 32) :
    fieldOp (ofFields op rx rsv a16 a32) = op := by
  ext i hi
  simp only [fieldOp, ofFields, BitVec.getElem_extractLsb', BitVec.getLsbD_append]
  interval_cases i <;> simp

@[simp] theorem fieldRx_ofFields (op : BitVec 8) (rx : BitVec 1) (rsv : BitVec 7) (a16 : BitVec 16) (a32 : BitVec 32) :
    fieldRx (ofFields op rx rsv a16 a32) = rx := by
  ext i hi
  simp only [fieldRx, ofFields, BitVec.getElem_extractLsb', BitVec.getLsbD_append]
  interval_cases i; simp

@[simp] theorem fieldRsv_ofFields (op : BitVec 8) (rx : BitVec 1) (rsv : BitVec 7) (a16 : BitVec 16)
    (a32 : BitVec 32) : fieldRsv (ofFields op rx rsv a16 a32) = rsv := by
  ext i hi
  simp only [fieldRsv, ofFields, BitVec.getElem_extractLsb', BitVec.getLsbD_append]
  interval_cases i <;> simp

@[simp] theorem fieldA16_ofFields (op : BitVec 8) (rx : BitVec 1) (rsv : BitVec 7) (a16 : BitVec 16)
    (a32 : BitVec 32) : fieldA16 (ofFields op rx rsv a16 a32) = a16 := by
  ext i hi
  simp only [fieldA16, ofFields, BitVec.getElem_extractLsb', BitVec.getLsbD_append]
  interval_cases i <;> simp

@[simp] theorem fieldA32_ofFields (op : BitVec 8) (rx : BitVec 1) (rsv : BitVec 7) (a16 : BitVec 16)
    (a32 : BitVec 32) : fieldA32 (ofFields op rx rsv a16 a32) = a32 := by
  ext i hi
  simp only [fieldA32, ofFields, BitVec.getElem_extractLsb', BitVec.getLsbD_append]
  interval_cases i <;> simp

/-- A word is made of its fields. -/
theorem ofFields_fields (v : Word) :
    ofFields (fieldOp v) (fieldRx v) (fieldRsv v) (fieldA16 v) (fieldA32 v) = v := by
  ext i hi
  simp only [ofFields, fieldOp, fieldRx, fieldRsv, fieldA16, fieldA32, BitVec.getElem_eq_testBit_toNat,
    BitVec.testBit_toNat, BitVec.getLsbD_append, BitVec.getLsbD_extractLsb']
  interval_cases i <;> simp

/-- Bits [63:8] are the four fields above OP. -/
theorem fieldRest_eq_zero_iff (v : Word) :
    fieldRest v = 0 ↔ fieldRx v = 0 ∧ fieldRsv v = 0 ∧ fieldA16 v = 0 ∧ fieldA32 v = 0 := by
  have hv : fieldRest v = fieldA32 v ++ (fieldA16 v ++ (fieldRsv v ++ fieldRx v)) := by
    ext i hi
    simp only [fieldRest, fieldRx, fieldRsv, fieldA16, fieldA32, BitVec.getElem_eq_testBit_toNat,
      BitVec.testBit_toNat, BitVec.getLsbD_append, BitVec.getLsbD_extractLsb']
    interval_cases i <;> simp
  constructor
  · intro h
    rw [hv] at h
    have hb : ∀ i, (fieldA32 v ++ (fieldA16 v ++ (fieldRsv v ++ fieldRx v))).getLsbD i = false := fun i => by
      rw [h]; simp
    simp only [BitVec.getLsbD_append] at hb
    refine ⟨?_, ?_, ?_, ?_⟩
    · ext i hi
      have := hb i
      interval_cases i
      simpa using this
    · ext i hi
      have := hb (1 + i)
      interval_cases i <;> simpa using this
    · ext i hi
      have := hb (8 + i)
      interval_cases i <;> simpa using this
    · ext i hi
      have := hb (24 + i)
      interval_cases i <;> simpa using this
  · rintro ⟨h1, h2, h3, h4⟩
    rw [hv, h1, h2, h3, h4]
    rfl

theorem testBit_of_lt_two_pow_16 {b : Nat} (h : b < 2 ^ 16) (i : Nat) : b.testBit (16 + i) = false :=
  Nat.testBit_lt_two_pow (Nat.lt_of_lt_of_le h (Nat.pow_le_pow_right (by omega) (by omega)))

/-- What the encoder makes of CONFIG's fields. -/
theorem encode_config {bits : Nat} (h : bits < 2 ^ 16) :
    encode (.config bits) = ofFields 1 0 0 (BitVec.ofNat 16 bits) 0 := by
  have hb := testBit_of_lt_two_pow_16 h
  ext i hi
  simp only [encode, ofFields, BitVec.getElem_eq_testBit_toNat, BitVec.testBit_toNat, BitVec.getLsbD_append,
    BitVec.getLsbD_or, BitVec.getLsbD_shiftLeft, BitVec.getLsbD_ofNat]
  have := hb (i - 32)
  interval_cases i <;> simp_all

/-- What the encoder makes of CONFIGR's fields. -/
theorem encode_configr {bits : Nat} (h : bits < 2 ^ 16) (rounds : Int) :
    encode (.configr bits rounds) = ofFields 1 1 0 (BitVec.ofNat 16 bits) (BitVec.ofInt 32 rounds) := by
  have hb := testBit_of_lt_two_pow_16 h
  ext i hi
  simp only [encode, ofFields, BitVec.getElem_eq_testBit_toNat, BitVec.testBit_toNat, BitVec.getLsbD_append,
    BitVec.getLsbD_or, BitVec.getLsbD_shiftLeft, BitVec.getLsbD_ofNat, BitVec.truncate_eq_setWidth,
    BitVec.getLsbD_setWidth]
  have := hb (i - 32)
  generalize BitVec.ofInt 32 rounds = r
  interval_cases i <;> simp_all

/-- What the encoder makes of INIT's fields. -/
theorem encode_init {keylen : Nat} (h : keylen < 2 ^ 16) :
    encode (.init keylen) = ofFields 2 0 0 (BitVec.ofNat 16 keylen) 0 := by
  have hb := testBit_of_lt_two_pow_16 h
  ext i hi
  simp only [encode, ofFields, BitVec.getElem_eq_testBit_toNat, BitVec.testBit_toNat, BitVec.getLsbD_append,
    BitVec.getLsbD_or, BitVec.getLsbD_shiftLeft, BitVec.getLsbD_ofNat]
  have := hb (i - 32)
  interval_cases i <;> simp_all

/-- The fields of a made word determine it. -/
theorem ofFields_inj {op op' : BitVec 8} {rx rx' : BitVec 1} {rsv rsv' : BitVec 7} {a16 a16' : BitVec 16}
    {a32 a32' : BitVec 32} (h : ofFields op rx rsv a16 a32 = ofFields op' rx' rsv' a16' a32') :
    op = op' ∧ rx = rx' ∧ rsv = rsv' ∧ a16 = a16' ∧ a32 = a32' :=
  ⟨by simpa using congrArg fieldOp h, by simpa using congrArg fieldRx h, by simpa using congrArg fieldRsv h,
    by simpa using congrArg fieldA16 h, by simpa using congrArg fieldA32 h⟩

/-- CONFIGR's mask of R52 keeps OP, RX and RSV. -/
theorem mask_low (v : Word) : v &&& 0x000000000000FFFF = ofFields (fieldOp v) (fieldRx v) (fieldRsv v) 0 0 := by
  ext i hi
  simp only [ofFields, fieldOp, fieldRx, fieldRsv, BitVec.getElem_eq_testBit_toNat,
    BitVec.testBit_toNat, BitVec.getLsbD_append, BitVec.getLsbD_extractLsb', BitVec.getLsbD_and]
  interval_cases i <;> simp

/-- The mask of CONFIG and INIT of R52 keeps A32 too. -/
theorem mask_high (v : Word) :
    v &&& 0xFFFFFFFF0000FFFF = ofFields (fieldOp v) (fieldRx v) (fieldRsv v) 0 (fieldA32 v) := by
  ext i hi
  simp only [ofFields, fieldOp, fieldRx, fieldRsv, fieldA32, BitVec.getElem_eq_testBit_toNat,
    BitVec.testBit_toNat, BitVec.getLsbD_append, BitVec.getLsbD_extractLsb', BitVec.getLsbD_and]
  interval_cases i <;> simp

theorem bitVec_one_cases (x : BitVec 1) : x = 0 ∨ x = 1 := by revert x; decide

/-- A word whose bits [63:8] are zero is its opcode. -/
theorem eq_of_fieldRest {v : Word} (h : fieldRest v = 0) : v = ofFields (fieldOp v) 0 0 0 0 := by
  obtain ⟨h1, h2, h3, h4⟩ := (fieldRest_eq_zero_iff v).mp h
  conv_lhs => rw [← ofFields_fields v, h1, h2, h3, h4]

/-- Everything the decoder can answer, with the word it answers so for. -/
theorem decode_cases (v : Word) :
    (v = ofFields 1 0 0 (fieldA16 v) 0 ∧ decode v = .instr (.config (fieldA16 v).toNat)) ∨
    (v = ofFields 1 1 0 (fieldA16 v) (fieldA32 v) ∧
      decode v = .instr (.configr (fieldA16 v).toNat (fieldA32 v).toInt)) ∨
    (v = ofFields 2 0 0 (fieldA16 v) 0 ∧ decode v = .instr (.init (fieldA16 v).toNat)) ∨
    (v = 3 ∧ decode v = .instr .encb) ∨ (v = 4 ∧ decode v = .instr .decb) ∨
    (v = 5 ∧ decode v = .instr .enc) ∨ (v = 6 ∧ decode v = .instr .dec) ∨
    ∃ why, decode v = .illegal why := by
  have hv := ofFields_fields v
  have plain : ∀ (i : Instr) (op : BitVec 8), fieldOp v = op →
      (v = ofFields op 0 0 0 0 ∧ decodePlain i v = .instr i) ∨ ∃ why, decodePlain i v = .illegal why := by
    rintro i op rfl
    unfold decodePlain
    split
    · exact .inl ⟨eq_of_fieldRest ‹_›, rfl⟩
    · exact .inr ⟨_, rfl⟩
  unfold decode
  split
  · unfold decodeConfig
    split
    · simp
    · split
      · exact .inr (.inl ⟨by simp_all, rfl⟩)
      · split
        · exact .inl ⟨by rcases bitVec_one_cases (fieldRx v) with h | h <;> simp_all, rfl⟩
        · simp
  · split
    · unfold decodeInit
      split
      · simp
      · split
        · exact .inr (.inr (.inl ⟨by simp_all, rfl⟩))
        · simp
    · split
      · rcases plain .encb 3 ‹_› with h | h
        · exact .inr (.inr (.inr (.inl h)))
        · simp [h]
      · split
        · rcases plain .decb 4 ‹_› with h | h
          · exact .inr (.inr (.inr (.inr (.inl h))))
          · simp [h]
        · split
          · rcases plain .enc 5 ‹_› with h | h
            · exact .inr (.inr (.inr (.inr (.inr (.inl h)))))
            · simp [h]
          · split
            · rcases plain .dec 6 ‹_› with h | h
              · exact .inr (.inr (.inr (.inr (.inr (.inr (.inl h))))))
              · simp [h]
            · simp

/-! ### Well-formedness, command by command -/

theorem wellFormed_config {bits : Nat} : (Instr.config bits).WellFormed ↔ bits < 2 ^ 16 := by
  simp only [Instr.WellFormed, Instr.illFormed]
  split <;> simp_all

theorem wellFormed_configr {bits : Nat} {rounds : Int} :
    (Instr.configr bits rounds).WellFormed ↔ bits < 2 ^ 16 ∧ -2 ^ 31 ≤ rounds ∧ rounds < 2 ^ 31 := by
  simp only [Instr.WellFormed, Instr.illFormed]
  split
  · simp_all
  · split <;> simp_all

theorem wellFormed_init {keylen : Nat} : (Instr.init keylen).WellFormed ↔ keylen < 2 ^ 16 := by
  simp only [Instr.WellFormed, Instr.illFormed]
  split <;> simp_all

end Sys2Proof
end

