-- ==== Sys2Proof/Laws/PerInstr.lean ====
section
/-! SUPPORT. Statements made for every command, one lemma per constructor: the row of spec/30_encoding.md R52 that a
command's word belongs to. -/

namespace Sys2Proof.Laws.EncodedFields

/-- What R52 puts into the five fields of a command's word: OP, RX, RSV, A16, A32. -/
def rowOf : Instr → BitVec 8 × BitVec 1 × BitVec 7 × BitVec 16 × BitVec 32
  | .config bits => (0x01, 0, 0, BitVec.ofNat 16 bits, 0)
  | .configr bits rounds => (0x01, 1, 0, BitVec.ofNat 16 bits, BitVec.ofInt 32 rounds)
  | .init keylen => (0x02, 0, 0, BitVec.ofNat 16 keylen, 0)
  | .encb => (0x03, 0, 0, 0, 0)
  | .decb => (0x04, 0, 0, 0, 0)
  | .enc => (0x05, 0, 0, 0, 0)
  | .dec => (0x06, 0, 0, 0, 0)

/-- The word of a well-formed command holds its row's values, field by field. -/
def Statement (i : Instr) : Prop :=
  i.WellFormed →
    (fieldOp (encode i), fieldRx (encode i), fieldRsv (encode i), fieldA16 (encode i), fieldA32 (encode i)) = rowOf i

theorem config (bits : Nat) : Statement (.config bits) := fun h => by
  simp [encode_config (wellFormed_config.mp h), rowOf]

theorem configr (bits : Nat) (rounds : Int) : Statement (.configr bits rounds) := fun h => by
  simp [encode_configr (wellFormed_configr.mp h).1, rowOf]

theorem init (keylen : Nat) : Statement (.init keylen) := fun h => by
  simp [encode_init (wellFormed_init.mp h), rowOf]

theorem encb : Statement .encb := fun _ => by decide

theorem decb : Statement .decb := fun _ => by decide

theorem enc : Statement .enc := fun _ => by decide

theorem dec : Statement .dec := fun _ => by decide

end Sys2Proof.Laws.EncodedFields
end

