-- ==== Sys2Proof/Tests/Slice0.lean ====
section
/-! SUPPORT. Tests with values taken from spec/ (spec/95_test_vectors.md, and words written out from
spec/30_encoding.md R50 and R52), and for each obligation with hypotheses a witness that meets them. -/

namespace Sys2Proof.Tests

open Sys2Proof.Machine

/-! ### Helpers -/

/-- The next state of an outcome. -/
def nextOf : Host.Outcome State Fault Refusal → Option State
  | .next t => some t
  | .fault _ => none
  | .refused _ => none

/-- The state after `config 256, rounds` and `init 4` with a zero key and tweak (V2). -/
def keyed256 (rounds : BitVec 32) : State :=
  { State.reset with
    cfgValid := true, nw := .words4, nr := rounds, keyValid := true,
    keyRing := (Vector.replicate 17 0).set 4 0x1BD11BDAA9FC1A22 }

/-- The state after `config 256`. -/
def configured256 : State := { State.reset with cfgValid := true, nw := .words4, nr := 72 }

/-- `keyed256` with the key 1, 2, 3, 4 and the tweak 0x10, 0x20 (V2). -/
def keyed1234 (rounds : BitVec 32) : State :=
  { keyed256 rounds with
    keyRing := #v[1, 2, 3, 4, 0x1BD11BDAA9FC1A26, 0, 0, 0, 0, 0, 0, 0, 0, 0, 0, 0, 0]
    tweakRing := #v[0x10, 0x20, 0x30] }

/-- After `buffers sa, sn, da, dc` (R57). -/
def withBuffers (sa sn da dc : Word) (s : State) : State :=
  { s with srcAddr := sa, srcLen := sn, dstAddr := da, dstCap := dc }

/-- Memory holding a byte string. -/
def bytesAt (a : Nat) (b : List Byte) : Memory := writeBytes [] a b

/-- Sixteen words whose first four are given. -/
def block4 (a b c d : Word) : Vector Word 16 := #v[a, b, c, d, 0, 0, 0, 0, 0, 0, 0, 0, 0, 0, 0, 0]

/-- The byte string of "abc". -/
def abc : List Byte := [0x61, 0x62, 0x63]

/-- The ciphertext of "abc" under the zero key, 72 rounds (V30). -/
def cipherAbc : List Byte :=
   [0xa9, 0xed, 0x10, 0x9b, 0x81, 0xf9, 0x64, 0xbf, 0x7c, 0x35, 0x01, 0xfe, 0xd4, 0x01, 0xec, 0x72,
    0x00, 0x79, 0x06, 0xca, 0x4b, 0xe9, 0x4e, 0x62, 0xce, 0x5f, 0x80, 0x77, 0x06, 0xa2, 0x8d, 0x27]

/-- The ciphertext of the zero block under the zero key, 72 rounds, as bytes (V10). -/
def cipherZero : List Byte :=
   [0x84, 0xda, 0x2a, 0x1f, 0x8b, 0xea, 0xee, 0x94, 0x70, 0x66, 0xae, 0x3e, 0x31, 0x03, 0xf1, 0xad,
    0x53, 0x6d, 0xb1, 0xf4, 0xa1, 0x19, 0x24, 0x95, 0x11, 0x6b, 0x9f, 0x3c, 0xe6, 0x13, 0x3f, 0xd8]

/-- The ciphertext of the empty message under the zero key, 72 rounds (V31). -/
def cipherEmpty : List Byte :=
   [0x8a, 0x9f, 0x78, 0x10, 0xed, 0x1d, 0x6c, 0xa2, 0xaf, 0x64, 0x99, 0xab, 0x6a, 0xae, 0x4b, 0x6d,
    0x19, 0x94, 0x1e, 0x3f, 0x2e, 0x71, 0x80, 0x27, 0x3b, 0xc3, 0xb6, 0x8a, 0x10, 0x25, 0x48, 0x47]

/-- The ciphertext of `01 ff 05` and 29 zero bytes as one block (V32). -/
def cipherTrailing : List Byte :=
   [0xa9, 0x4d, 0x06, 0x8c, 0x72, 0x4c, 0x2b, 0x83, 0xd6, 0xfc, 0xdb, 0x4a, 0xa2, 0xe9, 0xfa, 0x02,
    0x39, 0xb2, 0x43, 0x41, 0x60, 0xc7, 0x05, 0x68, 0x90, 0x56, 0x84, 0x50, 0xf8, 0xe1, 0x3e, 0xc7]

/-- An ENC of "abc" that is ready to run. -/
def encAbc (rounds : BitVec 32) : State :=
  withBuffers 0x1000 3 0x2000 32 { keyed256 rounds with mem := bytesAt 0x1000 abc }

/-- A DEC of a ciphertext that is ready to run, 72 rounds. -/
def decOf (c : List Byte) : State :=
  withBuffers 0x1000 (BitVec.ofNat 64 c.length) 0x2000 (BitVec.ofNat 64 (c.length - 1))
    { keyed256 72 with mem := bytesAt 0x1000 c }

/-! ### WellFormed refuses each ill-formed operand (R51, R56) -/

theorem test_illFormed_blockSize : (Instr.config 65536).illFormed = some .blockSizeRange := by decide
theorem test_illFormed_blockSize_configr : (Instr.configr 65536 4).illFormed = some .blockSizeRange := by decide
theorem test_illFormed_rounds_above : (Instr.configr 256 2147483648).illFormed = some .roundCountRange := by decide
theorem test_illFormed_rounds_below : (Instr.configr 256 (-2147483649)).illFormed = some .roundCountRange := by decide
theorem test_illFormed_keylen : (Instr.init 65536).illFormed = some .keyLengthRange := by decide
theorem test_wellFormed_bounds :
    (Instr.config 65535).WellFormed ∧ (Instr.configr 65535 (-2147483648)).WellFormed ∧
    (Instr.configr 0 2147483647).WellFormed ∧ (Instr.init 65535).WellFormed ∧ Instr.encb.WellFormed := by decide

/-! ### Decoding, one word per constructor, field by field: A32, A16, RSV, RX, OP (R50, R52) -/

theorem test_decode_config :
    decode (0b00000000000000000000000000000000#32 ++ 0b0000001000000000#16 ++ 0b0000000#7 ++ 0b0#1 ++ 0b00000001#8)
      = .instr (.config 512) := by decide
theorem test_decode_configr :
    decode (0b11111111111111111111111111111100#32 ++ 0b0000000100000000#16 ++ 0b0000000#7 ++ 0b1#1 ++ 0b00000001#8)
      = .instr (.configr 256 (-4)) := by decide
theorem test_decode_init :
    decode (0b00000000000000000000000000000000#32 ++ 0b0000000000010000#16 ++ 0b0000000#7 ++ 0b0#1 ++ 0b00000010#8)
      = .instr (.init 16) := by decide
theorem test_decode_encb :
    decode (0b00000000000000000000000000000000#32 ++ 0b0000000000000000#16 ++ 0b0000000#7 ++ 0b0#1 ++ 0b00000011#8)
      = .instr .encb := by decide
theorem test_decode_decb :
    decode (0b00000000000000000000000000000000#32 ++ 0b0000000000000000#16 ++ 0b0000000#7 ++ 0b0#1 ++ 0b00000100#8)
      = .instr .decb := by decide
theorem test_decode_enc :
    decode (0b00000000000000000000000000000000#32 ++ 0b0000000000000000#16 ++ 0b0000000#7 ++ 0b0#1 ++ 0b00000101#8)
      = .instr .enc := by decide
theorem test_decode_dec :
    decode (0b00000000000000000000000000000000#32 ++ 0b0000000000000000#16 ++ 0b0000000#7 ++ 0b0#1 ++ 0b00000110#8)
      = .instr .dec := by decide

/-- The illegal words of V22. -/
theorem test_decode_illegal : ∀ v ∈ [0x0, 0x7, 0xFF, 0x203, 0x103, 0x10003, 0x100000005, 0x101000001, 0x40102,
    0x100040002, 0x1008101], decodeTableWord 64 v = none := by decide

/-- V22: an illegal word changes only ERR. -/
theorem test_illegal_runs :
    nextOf (step ((keyed256 72).withFetchWord 64 0x203)) = some { keyed256 72 with err := 5 } := by decide

/-- The host's helpers: the table's row for ENC, with its bits in the first byte alone. -/
theorem test_decodeTableWord : decodeTableWord 8 0x05 = some .enc ∧ decodeTableWord 64 0x02000001 = some (.config 512) ∧
    decodeTableWord 64 0x07 = none := by decide

/-! ### One step of each command, with values of the spec -/

/-- V20: `config 512` from reset. -/
theorem test_config_512 :
    (nextOf (step (State.reset.withFetchWord 64 0x02000001))).map statusWord = some 0x0000004800000810 := by decide

/-- V20: a failed CONFIG after a good one keeps the configuration. -/
theorem test_config_128_keeps :
    (nextOf (exec (.config 128) { State.reset with cfgValid := true, nw := .words8, nr := 72 })).map statusWord
      = some 0x0000004800000811 := by decide

/-- V20: the largest round count. -/
theorem test_configr_largest :
    (nextOf (step (State.reset.withFetchWord 64 0x7FFFFFFC04000101))).map statusWord = some 0x7FFFFFFC00001010 := by
  decide

/-- V20: the block size is checked first. -/
theorem test_configr_order :
    (nextOf (step (State.reset.withFetchWord 64 0x0000000700800101))).map statusWord = some 1 := by decide

/-- V2, R63: `init 4` with the key 1, 2, 3, 4 and the tweak 0x10, 0x20. -/
theorem test_init_rings :
    (nextOf (exec (.init 4) { State.reset with
        cfgValid := true, nw := .words4, nr := 72, keyIn := block4 1 2 3 4, tweakIn := #v[0x10, 0x20] })).map
      (fun t => (t.keyRing.toList.take 5, t.tweakRing.toList, statusWord t))
      = some ([1, 2, 3, 4, 0x1BD11BDAA9FC1A26], [0x10, 0x20, 0x30], 0x0000004800000430) := by decide

/-- V21: a failed INIT keeps the key. -/
theorem test_init_5_keeps_key :
    (nextOf (exec (.init 5) (keyed1234 72))) = some { keyed1234 72 with err := 3 } := by decide

/-- V10, the published Threefish-256 answer. -/
theorem test_encb_zero :
    (nextOf (exec .encb (keyed256 72))).map (·.blkOut)
      = some (block4 0x94EEEA8B1F2ADA84 0xADF103313EAE6670 0x952419A1F4B16D53 0xD83F13E63C9F6B11) := by decide +kernel

/-- V15, four rounds with a key and a tweak. -/
theorem test_encb_four_rounds :
    (nextOf (exec .encb { keyed1234 4 with
        blkIn := block4 0x1111111111111111 0x2222222222222222 0x3333333333333333 0x4444444444444444 })).map (·.blkOut)
      = some (block4 0xE457067DF7D793A7 0x29C397737EC8661F 0xC5811455AFD91C8C 0x2DAD97EEFD985923) := by decide +kernel

/-- V16. -/
theorem test_decb_zero :
    (nextOf (exec .decb (keyed1234 72))).map (·.blkOut)
      = some (block4 0xF67046606FDAD390 0xF4AF402260A31556 0x497448D7620DC51B 0x709B1E7529198764) := by decide +kernel

/-- V23: DECB without a key leaves BLK_OUT alone. -/
theorem test_decb_no_key : nextOf (exec .decb State.reset) = some { State.reset with err := 7 } := by decide

/-- V30: ENC of "abc". -/
theorem test_enc_abc :
    (nextOf (exec .enc (encAbc 72))).map (fun t => (readBytes t.mem 0x2000 33, t.dstLen, t.err))
      = some (cipherAbc ++ [0], 32, 0) := by decide +kernel

/-- V34: adjacent regions do not overlap, a shared byte does. -/
theorem test_enc_overlap :
    encCheck (withBuffers 0x1000 3 0x1002 32 (keyed256 72)) = some .bufferOverlap ∧
    encCheck (withBuffers 0x1000 3 0x1003 32 (keyed256 72)) = none ∧
    encCheck (withBuffers 0xFFFFFFFFFFFFFFFF 1 0x2000 32 (keyed256 72)) = none := by decide

/-- V32: the byte after the terminator is not checked. -/
theorem test_dec_trailing :
    (nextOf (exec .dec (decOf cipherTrailing))).map (fun t => (readBytes t.mem 0x2000 3, t.dstLen, t.err))
      = some ([0x01, 0, 0], 1, 0) := by decide +kernel

/-- V32: a block of zeros holds no terminator. -/
theorem test_dec_no_terminator :
    (nextOf (exec .dec (decOf cipherZero))).map (fun t => (t.mem, t.dstLen, t.err))
      = some (bytesAt 0x1000 cipherZero, 0, 4) := by decide +kernel

/-! ### Tables, key schedule and MIX -/

/-- R71: the inverse tables of the spec. -/
theorem test_permInv :
    (defaultConfig.permInv .words4).toList.map Fin.val = [0, 3, 2, 1] ∧
    (defaultConfig.permInv .words8).toList.map Fin.val = [6, 1, 0, 7, 2, 5, 4, 3] ∧
    (defaultConfig.permInv .words16).toList.map Fin.val = [0, 15, 2, 11, 6, 13, 4, 9, 14, 1, 8, 5, 10, 3, 12, 7] := by
  decide +kernel

/-- V1. -/
theorem test_mix : mix 0x0123456789ABCDEF 0xFEDCBA9876543210 32 = (0xFFFFFFFFFFFFFFFF, 0x89ABCDEF01234567) ∧
    unmix 0 0x10000 16 = (0xFFFFFFFFFFFFFFFF, 1) := by decide

/-- V4: the key ring and the tweak ring wrap. -/
theorem test_subKey :
    (subKey (keyed1234 4).cipher 4).toList = [0x1BD11BDAA9FC1A26, 0x21, 0x32, 7] ∧
    (subKey (keyed1234 4).cipher 3).toList = [4, 0x1BD11BDAA9FC1A36, 0x21, 5] := by decide +kernel

/-- R84: a fixed tweak index, the index 2s mod 3 (2·5 mod 3 = 1), and a word with two terms (T[0] + 5), under the tweak
ring 0x10, 0x20, 0x30. -/
theorem test_subKey_layouts :
    [[.tweak [2]], [.tweak [0, 2, 1]], [.tweak [0], .counter], []].map
      (fun terms => sumTerms terms (keyed1234 4).tweakRing 5) = [0x30, 0x20, 0x15, 0] := by decide

/-- V40: STATUS, CMD and a reserved offset read 0 after reset. -/
theorem test_reset_reads : statusWord State.reset = 0 ∧ readReg (hostReg 0) State.reset = 0 ∧
    readReg (hostReg 0x200) State.reset = 0 := by decide

/-! ### Witnesses: what the obligations suppose can be met -/

theorem witness_DecodeOfEncodeIsIdentity : (Instr.configr 65535 (-2147483648)).WellFormed := by decide

theorem witness_EncodeOfDecodeIsIdentity : decode 0x80000000FFFF0101 = .instr (.configr 65535 (-2147483648)) := by decide

/-- A word for each clause. -/
theorem witness_DecodeSelectsByMaskAndMatch :
    (0x00000000FFFF0001 : Word) &&& 0xFFFFFFFF0000FFFF = 1 ∧ (0xFFFFFFFF00000101 : Word) &&& 0x000000000000FFFF = 0x101 ∧
    (0x0000000000000002 : Word) &&& 0xFFFFFFFF0000FFFF = 2 ∧ decode 0x0000000100000001 = .illegal .configArgument := by
  decide

theorem witness_IllegalWordChangesOnlyErr : decode 0x0000000000000000 = .illegal .unassignedOpcode := by decide

theorem witness_StepRunsDecodedCommand : decode 0x0000000000000006 = .instr .dec := by decide

theorem witness_FetchWordIsTheNextCommand : decode 0x0000000801000101 = .instr (.configr 256 8) := by decide

theorem witness_NoAccessHoldsState : State.reset.hostOps = [] := rfl

/-- The ends of each range of the map. -/
theorem witness_RegisterMapPlacesEveryRegister :
    hostReg 0x038 = .reserved ∧ hostReg 0x040 = .keyIn 0 ∧ hostReg 0x0B8 = .keyIn 15 ∧ hostReg 0x0C0 = .tweakIn 0 ∧
    hostReg 0x0C8 = .tweakIn 1 ∧ hostReg 0x0D0 = .reserved ∧ hostReg 0x0F8 = .reserved ∧ hostReg 0x100 = .blkIn 0 ∧
    hostReg 0x178 = .blkIn 15 ∧ hostReg 0x180 = .blkOut 0 ∧ hostReg 0x1F8 = .blkOut 15 ∧ hostReg 0x200 = .reserved := by
  decide

/-- An access in place at the last register offset, and one of each kind that is not: too narrow, not aligned, past the
block. -/
theorem witness_MisplacedRegisterAccessIsRefused :
    (∃ k, k < 512 ∧ (0xF0000FF8 : Addr) = State.reset.cfg.coreBase + BitVec.ofNat 64 (8 * k)) ∧
    registerAt State.reset.cfg 0xF0000FF8 .b64 = some .reserved ∧
    registerAt State.reset.cfg 0xF0000FF8 .b32 = none ∧ registerAt State.reset.cfg 0xF0000004 .b64 = none ∧
    registerAt State.reset.cfg 0xF0001000 .b64 = none :=
  ⟨⟨511, by decide⟩, by decide⟩

/-- An access to each register, at the ends of the arrays. -/
theorem witness_HostReadReturnsRegister :
    [0x000, 0x008, 0x010, 0x018, 0x020, 0x028, 0x030, 0x040, 0x0B8, 0x0C0, 0x0C8, 0x100, 0x178, 0x180, 0x1F8, 0xFF8].map
      (fun off => registerAt State.reset.cfg (State.reset.cfg.coreBase + BitVec.ofNat 64 off) .b64)
      = [some .cmd, some .status, some .srcAddr, some .srcLen, some .dstAddr, some .dstCap, some .dstLen, some (.keyIn 0),
        some (.keyIn 15), some (.tweakIn 0), some (.tweakIn 1), some (.blkIn 0), some (.blkIn 15), some (.blkOut 0),
        some (.blkOut 15), some .reserved] := by decide

/-- A writable and a read-only register. -/
theorem witness_HostWriteStoresOnlyItsRegister :
    registerAt State.reset.cfg 0xF00001F8 .b64 = some (.blkOut 15) ∧ HostReg.writable (.blkOut 15) = false ∧
    registerAt State.reset.cfg 0xF0000178 .b64 = some (.blkIn 15) ∧ HostReg.writable (.blkIn 15) = true := by decide

theorem witness_ReservedOffsetsReadZeroIgnoreWrites : ∀ off ∈ [0x038, 0x0D0, 0x0F8, 0x200, 0xFF8],
    off % 8 = 0 ∧ (off = 0x038 ∨ (0x0D0 ≤ off ∧ off ≤ 0x0F8) ∨ (0x200 ≤ off ∧ off ≤ 0xFF8)) := by decide

/-- The first and last byte of memory and the bytes beside the register block are ordinary; the block's are not. -/
theorem witness_HostMemoryHoldsStoredByte :
    State.reset.mem.wf ∧ (∀ a ∈ [0, 2 ^ 64 - 1, 0xEFFFFFFF, 0xF0001000], touchesDevice State.reset.cfg a 1 = false) ∧
    touchesDevice State.reset.cfg 0xF0000000 1 = true ∧ touchesDevice State.reset.cfg 0xF0000FFF 1 = true := by decide

theorem witness_ConfigSelectsBlockSize : (65535 : Nat) < 65536 := by decide

/-- One operand pair for each clause, at its boundary. -/
theorem witness_ConfigrSelectsBlockSizeAndRounds :
    ((255 : Nat) ≠ 256 ∧ (255 : Nat) ≠ 512 ∧ (255 : Nat) ≠ 1024) ∧ ((0 : Int) ≤ 0 ∧ (2147483647 : Int) % 4 ≠ 0) ∧
    (0 < (2147483644 : Int) ∧ (2147483644 : Int) % 4 = 0 ∧ (2147483644 : Int) < 2 ^ 31) := by decide

/-- One state and operand for each clause. -/
theorem witness_InitLoadsKeyAndTweak :
    State.reset.cfgValid = false ∧ (keyed256 72).cfgValid = true ∧ (8 : Nat) ≠ (keyed256 72).nw.words ∧
    (keyed256 72).nw ≠ .unset ∧ (4 : Nat) = (keyed256 72).nw.words := by decide

theorem witness_FailedConfigurationChangesOnlyErr :
    isInit (.init 4) = true ∧ exec (.init 4) State.reset = .next { State.reset with err := 6 } ∧ (6 : BitVec 4) ≠ 0 :=
  ⟨rfl, rfl, by decide⟩

/-- A successful and a failed configuration. -/
theorem witness_ReconfigurationDropsTheKey :
    isConfigure (.config 256) = true ∧
    exec (.config 256) (keyed256 72) = .next { keyed256 72 with keyValid := false } ∧
    (keyed256 72).err = 0 ∧ exec (.config 1) (keyed256 72) = .next { keyed256 72 with err := 1 } ∧
    isBlockCommand .encb = true ∧ isBytesCommand .dec = true := ⟨rfl, rfl, rfl, rfl, rfl, rfl⟩

theorem witness_MixAddsRotatesXors : 0 < 64 ∧ 63 < 64 := by decide

theorem witness_UnmixInvertsMix : 0 < 64 ∧ 63 < 64 := by decide

theorem witness_RotationMovesEveryBit : (63 : Nat) < 64 ∧ (0 : Nat) < 64 := by decide

/-- The default tables and another legal set. -/
theorem witness_InvPermuteInvertsPermute :
    ConfigLegal defaultConfig ∧ ConfigLegal { defaultConfig with perm4 := #v[1, 2, 3, 0] } := by decide

theorem witness_SubKeyFollowsTheSchedule :
    (keyed1234 4).cfg.layout = defaultLayout ∧ (3 : Nat) < (keyed1234 4).nw.words ∧ 3 + 1 = (keyed1234 4).nw.words ∧
    1 + 3 = (keyed1234 4).nw.words ∧ 2 + 2 = (keyed1234 4).nw.words ∧ 0 + 3 < (keyed1234 4).nw.words ∧
    (4 + 3) % ((keyed1234 4).nw.words + 1) < 17 ∧ 4 % 3 < 3 ∧ (4 + 1) % 3 < 3 := by decide

/-- Both clauses: PERM[1] = 3 is the second word of pair 1, PERM[2] = 2 its first. -/
theorem witness_BlockEncryptRunsTheRounds :
    ((defaultConfig.perm .words4)[1]).val = 2 * 1 + 1 ∧ ((defaultConfig.perm .words4)[2]).val = 2 * 1 ∧ 7 % 8 < 8 := by
  decide

theorem witness_BlockDecryptInvertsBlockEncrypt : ConfigLegal (keyed1234 4).cipher.cfg := by decide

theorem witness_EncbWritesTheEncryptedBlock : State.reset.keyValid = false ∧ (keyed256 4).keyValid = true ∧
    (3 : Nat) < (keyed256 4).nw.words ∧ (keyed256 4).nw.words ≤ 4 := by decide

theorem witness_DecbWritesTheDecryptedBlock : State.reset.keyValid = false ∧ (keyed256 4).keyValid = true ∧
    (3 : Nat) < (keyed256 4).nw.words ∧ (keyed256 4).nw.words ≤ 4 := by decide

theorem witness_DecbAfterEncbRestoresTheBlock : ConfigLegal (keyed256 4).cfg ∧ (keyed256 4).keyValid = true := by decide

theorem witness_StoreWordsInvertsLoadWords : cipherAbc.length = 8 * 4 ∧ (3 : Nat) < 4 ∧ (7 : Nat) < 8 := by decide

theorem witness_PaddedLengthIsNextMultiple : (0 : Nat) < 32 ∧ (List.replicate 32 (0 : Byte)).length < 2 * 32 := by decide

theorem witness_ScanFindsTheLastTerminator : ([0xFF, 0, 0xFF, 0] : List Byte).length = 4 ∧
    terminatorScan 4 [0xFF, 0, 0xFF, 0] = some 2 ∧ terminatorScan 4 [0xFF, 0, 0, 0] = some 0 ∧
    terminatorScan 4 [0, 0, 0, 0] = none := by decide

/-- One row of V34 for each error, and a row each where the region ends at 2^64 and where it just fits. -/
theorem witness_EncErrorsInOrder :
    encCheck State.reset = some .notInitialized ∧
    encCheck (withBuffers 0xFFFFFFFFFFFFFFF0 32 0x2000 8 (keyed256 72)) = some .addressRange ∧
    encCheck (withBuffers 0x1000 3 0x2000 31 (keyed256 72)) = some .destinationTooSmall ∧
    encCheck (withBuffers 0x1000 32 0x101F 64 (keyed256 72)) = some .bufferOverlap ∧
    encCheck (withBuffers 0x1000 0 0x1000 32 (keyed256 72)) = none := by decide

/-- One row of V34 for each error. -/
theorem witness_DecErrorsInOrder :
    decCheck State.reset = some .notInitialized ∧
    decCheck (withBuffers 0x1000 20 0x1010 0 (keyed256 72)) = some .invalidCiphertextLength ∧
    decCheck (withBuffers 0xFFFFFFFFFFFFFFF0 32 0x2000 0 (keyed256 72)) = some .addressRange ∧
    decCheck (withBuffers 0x1000 32 0x2000 30 (keyed256 72)) = some .destinationTooSmall ∧
    decCheck (withBuffers 0x1000 32 0x1010 32 (keyed256 72)) = some .bufferOverlap ∧
    decCheck (withBuffers 0x1000 32 0x2000 31 (keyed256 72)) = none := by decide

/-- The destination reaches the register block by one byte, the address x; one byte less and nothing is refused. The
source of the second state holds a byte of a listed device. -/
theorem witness_DeviceBuffersAreRefused :
    (0xEFFFFFC1 ≤ 0xF0000000 ∧ 0xF0000000 < 0xEFFFFFC1 + 64) ∧
    State.reset.cfg.coreBase.toNat = 0xF0000000 ∧
    regionsTouchDevice (withBuffers 0x1000 32 0xEFFFFFC1 64 (keyed256 72)) = true ∧
    encCheck (withBuffers 0x1000 32 0xEFFFFFC1 64 (keyed256 72)) = none ∧
    decCheck (withBuffers 0x1000 32 0xEFFFFFC1 64 (keyed256 72)) = none ∧
    regionsTouchDevice (withBuffers 0x1000 32 0xEFFFFFC0 64 (keyed256 72)) = false ∧
    regionsTouchDevice (withBuffers 0x1000 32 0x2000 64
      { keyed256 72 with cfg := { defaultConfig with devices := [{ base := 0x101F, size := 1 }] } }) = true := by decide

/-- The first state above meets the remaining hypotheses of both clauses, with its numbers written out. -/
theorem witness_DeviceBuffersAreRefused_hypotheses :
    (keyed256 72).keyValid = true ∧ 0x1000 + 32 ≤ 2 ^ 64 ∧ 0xEFFFFFC1 + 64 ≤ 2 ^ 64 ∧
    (∀ y : Nat, ¬((0x1000 ≤ y ∧ y < 0x1000 + 32) ∧ (0xEFFFFFC1 ≤ y ∧ y < 0xEFFFFFC1 + 64))) ∧
    (32 / (keyed256 72).nw.bytes + 1) * (keyed256 72).nw.bytes ≤ 64 ∧ 32 % (keyed256 72).nw.bytes = 0 ∧ 32 - 1 ≤ 64 :=
  ⟨by decide, by decide, by decide, fun y => by omega, by decide, by decide, by decide⟩

/-- An empty message, a short one, and one that ends at the top of memory. -/
theorem witness_EncWritesThePaddedCiphertext :
    (encAbc 72).nw ≠ .unset ∧ (encAbc 72).mem.wf ∧ EncReady (encAbc 72) ∧
    EncReady (withBuffers 0x1000 0 0x1000 32 (keyed256 72)) ∧
    EncReady (withBuffers 0xFFFFFFFFFFFFFFFF 1 0x2000 32 (keyed256 72)) := by decide

/-- V30, and the terminator at index 0 (V32). -/
theorem witness_DecWritesThePlaintext :
    (decOf cipherAbc).nw ≠ .unset ∧ (decOf cipherAbc).mem.wf ∧ DecReady (decOf cipherAbc) ∧
    terminatorScan (decOf cipherAbc).nw.bytes
      ((decryptedBytes (decOf cipherAbc)).drop ((decOf cipherAbc).srcLen.toNat - (decOf cipherAbc).nw.bytes))
      = some 3 ∧
    DecReady (decOf cipherEmpty) ∧
    terminatorScan (decOf cipherEmpty).nw.bytes
      ((decryptedBytes (decOf cipherEmpty)).drop ((decOf cipherEmpty).srcLen.toNat - (decOf cipherEmpty).nw.bytes))
      = some 0 := by decide +kernel

/-- V32, and two blocks of zeros, so that some destination bytes are unspecified. -/
theorem witness_DecWithoutTerminatorFails :
    (decOf cipherZero).nw ≠ .unset ∧ (decOf cipherZero).mem.wf ∧ DecReady (decOf cipherZero) ∧
    terminatorScan (decOf cipherZero).nw.bytes
      ((decryptedBytes (decOf cipherZero)).drop ((decOf cipherZero).srcLen.toNat - (decOf cipherZero).nw.bytes))
      = none ∧
    DecReady (decOf (cipherZero ++ cipherZero)) ∧
    terminatorScan (decOf (cipherZero ++ cipherZero)).nw.bytes
      ((decryptedBytes (decOf (cipherZero ++ cipherZero))).drop
        ((decOf (cipherZero ++ cipherZero)).srcLen.toNat - (decOf (cipherZero ++ cipherZero)).nw.bytes))
      = none := by decide +kernel

theorem enc_ready_runs {s : State} (h1 : encCheck s = none) (h2 : regionsTouchDevice s = false) :
    exec .enc s = .next (finishBytes (encMemory s) (encLength s) s) := by
  simp [exec, execEnc, h1, h2]

/-- Two memories that agree on "abc" and differ elsewhere. -/
theorem witness_ByteCommandsReadOnlyTheSource :
    isBytesCommand .enc = true ∧ (encAbc 4).nw ≠ .unset ∧ (encAbc 4).mem.wf ∧
    Memory.wf ((encAbc 4).mem.write 0x2020 0x77) ∧
    (∀ x, 0x1000 ≤ x → x < 0x1003 → ((encAbc 4).mem.write 0x2020 0x77).read x = (encAbc 4).mem.read x) ∧
    ∃ t, exec .enc (encAbc 4) = .next t := by
  refine ⟨by decide, by decide, by decide, by decide, ?_, _, enc_ready_runs (by decide) (by decide)⟩
  intro x h1 h2
  interval_cases x <;> decide

/-- ENC of "abc" into 0x2000, then DEC into 0x3000, where one byte less than the ciphertext fits. -/
theorem witness_DecAfterEncRestoresTheMessage :
    ConfigLegal (encAbc 4).cfg ∧ (encAbc 4).nw ≠ .unset ∧ (encAbc 4).mem.wf ∧ EncReady (encAbc 4) ∧
    ∃ t, exec .enc (encAbc 4) = .next t ∧
      DecReady { t with srcAddr := (encAbc 4).dstAddr, srcLen := t.dstLen, dstAddr := 0x3000, dstCap := 31 } :=
  ⟨by decide, by decide, by decide, by decide, _, enc_ready_runs (by decide) (by decide), by decide +kernel⟩

theorem witness_NoCommandWritesStagingRegisters :
    exec .encb State.reset = .next { State.reset with err := 7 } := rfl

/-- A command of each kind. -/
theorem witness_EveryResultHasItsOwnWriters :
    (∃ t, exec .enc (encAbc 4) = .next t) ∧ isConfigure .enc = false ∧ isInit .enc = false ∧
    isBlockCommand .enc = false ∧ (∃ t, exec (.config 256) State.reset = .next t) ∧
    isBytesCommand (.config 256) = false :=
  ⟨⟨_, enc_ready_runs (by decide) (by decide)⟩, by decide, by decide, by decide, ⟨_, rfl⟩, by decide⟩

theorem witness_OnlyByteCommandsAccessMemory : isBytesCommand .encb = false := by decide

/-- Without a key any ring, with a key any word above the parity word. -/
theorem witness_UnloadedKeyCannotBeObserved :
    SameToHost State.reset { State.reset with tweakRing := #v[1, 2, 3] } ∧
    SameToHost (keyed256 4) { keyed256 4 with keyRing := (keyed256 4).keyRing.set 5 7 } := by
  refine ⟨⟨rfl, by decide⟩, rfl, fun _ => ⟨rfl, fun i h hi => ?_⟩⟩
  have : i ≤ 4 := hi
  interval_cases i <;> rfl

/-- A step that loads a key, from a state that meets the invariant. -/
theorem witness_StepKeepsTheInvariant :
    configured256.Inv ∧ (keyed1234 72).Inv ∧
    nextOf (step (configured256.withFetchWord 64 0x40002)) = some (keyed256 72) :=
  ⟨by decide, by decide, by decide⟩

theorem witness_EveryCommandWordCompletes : regionsTouchDevice (encAbc 4) = false := by decide

/-- A byte at each end of the register block touches it; the bytes beside it do not, nor does an empty region inside. -/
theorem witness_TouchingADeviceMeansADeviceAddress :
    touchesDevice defaultConfig 0xF0000FFF 1 = true ∧ touchesDevice defaultConfig 0xEFFFFFFF 2 = true ∧
    touchesDevice defaultConfig 0xEFFFFFFF 1 = false ∧ touchesDevice defaultConfig 0xF0001000 1 = false ∧
    touchesDevice defaultConfig 0xF0000800 0 = false := by decide

/-- A transform of 2^31 − 4 rounds and its last sub-key, under any layout. -/
theorem witness_EveryTweakLayoutCanBeConfigured (layout : SubkeyLayout) :
    let c : CipherContext .words4 :=
      { cfg := { defaultConfig with layout := layout }, nr := 2147483644, keyRing := (keyed1234 4).keyRing,
        tweakRing := (keyed1234 4).tweakRing }
    c.cfg.layout = layout ∧ c.nr < 2 ^ 31 ∧ 536870911 ≤ c.nr / 4 ∧ (3 : Nat) < BlockWidth.words4.words ∧
      (536870911 + 3) % (BlockWidth.words4.words + 1) < 17 :=
  ⟨rfl, show (2147483644 : Nat) < 2 ^ 31 by decide, show 536870911 ≤ 2147483644 / 4 by decide, by decide, by decide⟩

end Sys2Proof.Tests
end

section
/-! LoadWords and StoreWords are inverse to each other in either byte order, word by word and byte by byte (R37, R38). -/

namespace Sys2Proof.Machine

/-! ### One word and its eight bytes -/

theorem bytesLittle_getD (w : Word) {j : Nat} (hj : j < 8) :
    (bytesLittle w).getD j 0 = w.extractLsb' (8 * j) 8 := by
  simp [bytesLittle, List.getD, hj]

theorem wordBytes_big_getD (w : Word) {j : Nat} (hj : j < 8) :
    (wordBytes .big w).getD j 0 = w.extractLsb' (8 * (7 - j)) 8 := by
  rw [← bytesLittle_getD w (by omega : 7 - j < 8)]
  simp [wordBytes, List.getD, hj, show 7 - j < 8 by omega]

/-- A byte shifted to bit p reads back from bit p. -/
theorem extractLsb'_shiftedByte_same (b : Byte) {p : Nat} (hp : p + 8 ≤ 64) :
    (b.zeroExtend 64 <<< p).extractLsb' p 8 = b := by
  ext i hi
  simp [show p + i < 64 by omega, hi]

/-- A byte shifted to bit p leaves eight bits away from it zero. -/
theorem extractLsb'_shiftedByte_apart (b : Byte) {p q : Nat} (h : p + 8 ≤ q ∨ q + 8 ≤ p) :
    (b.zeroExtend 64 <<< p).extractLsb' q 8 = 0#8 := by
  ext i hi
  rcases h with h | h
  · simp [BitVec.getLsbD_of_ge b (q + i - p) (by omega)]
  · simp [show q + i < p by omega]

/-- Byte j of the packed word is byte j of the string: the other seven bytes stand apart from it. -/
theorem extractLsb'_packLittle (s : List Byte) {j : Nat} (hj : j < 8) :
    (packLittle s).extractLsb' (8 * j) 8 = s.getD j 0 := by
  rw [packLittle, ← BitVec.shiftLeft_zero ((s.getD 0 0).zeroExtend 64)]
  simp only [BitVec.extractLsb'_or]
  interval_cases j <;>
    simp (disch := decide) only [Nat.reduceMul, extractLsb'_shiftedByte_same, extractLsb'_shiftedByte_apart,
      BitVec.or_zero, BitVec.zero_or]

theorem bytesLittle_packLittle {s : List Byte} (h : s.length = 8) : bytesLittle (packLittle s) = s := by
  refine List.ext_getElem (by simp [h]) fun j hb hs => ?_
  have hj : j < 8 := h ▸ hs
  rw [← List.getD_eq_getElem _ 0 hb, ← List.getD_eq_getElem _ 0 hs, bytesLittle_getD _ hj, extractLsb'_packLittle s hj]

theorem packWord_wordBytes (o : ByteOrder) (w : Word) : packWord o (wordBytes o w) = w := by
  cases o <;> simp [packWord, wordBytes, packLittle_bytesLittle]

theorem wordBytes_packWord (o : ByteOrder) {s : List Byte} (h : s.length = 8) : wordBytes o (packWord o s) = s := by
  cases o <;> simp [packWord, wordBytes, bytesLittle_packLittle, h]

/-! ### Blocks -/

/-- Byte j of word i of a stored block stands at index 8i + j. -/
theorem storeWords_getD {n : Nat} (o : ByteOrder) (w : Vector Word n) {i j : Nat} (hi : i < n) (hj : j < 8) :
    (storeWords o w).getD (8 * i + j) 0 = (wordBytes o w[i]).getD j 0 := by
  simp [← storeWords_slice o w i hi, List.getD, hj]

theorem loadWords_getElem (o : ByteOrder) (s : List Byte) {n i : Nat} (hi : i < n) :
    (loadWords o s n)[i] = packWord o ((s.drop (8 * i)).take 8) := by
  simp [loadWords]

theorem loadWords_storeWords {n : Nat} (o : ByteOrder) (w : Vector Word n) : loadWords o (storeWords o w) n = w := by
  ext i hi : 1
  rw [loadWords_getElem o _ hi, storeWords_slice o w i hi, packWord_wordBytes]

theorem storeWords_loadWords {n : Nat} (o : ByteOrder) {s : List Byte} (h : s.length = 8 * n) :
    storeWords o (loadWords o s n) = s := by
  refine List.ext_getElem (by simp [h]) fun k hk hks => ?_
  have hi : k / 8 < n := by omega
  have hj : k % 8 < 8 := Nat.mod_lt _ (by decide)
  have hslice : ((s.drop (8 * (k / 8))).take 8).length = 8 := by simp; omega
  have hbyte := storeWords_getD o (loadWords o s n) hi hj
  rw [Nat.div_add_mod, List.getD_eq_getElem _ _ hk, loadWords_getElem o s hi, wordBytes_packWord o hslice] at hbyte
  simpa [List.getD, hj, Nat.div_add_mod, hks] using hbyte

/-- Settles O32, in either order from the packing of one word and the place of its bytes. -/
theorem storeWordsInvertsLoadWords : Obligations.StoreWordsInvertsLoadWords := by
  unfold Obligations.StoreWordsInvertsLoadWords
  intro o n s w
  refine ⟨storeWords_loadWords o, loadWords_storeWords o w, storeWords_length o w, fun i j hi hj => ⟨?_, ?_⟩⟩
  · rw [storeWords_getD .little w hi hj, wordBytes, bytesLittle_getD _ hj]
  · rw [storeWords_getD .big w hi hj, wordBytes_big_getD _ hj]

end Sys2Proof.Machine
end

section
/-! Decoder and encoder are inverse to each other, so a word decodes to a command exactly when it is that command's word;
with the masks of R52 read as fields, a word decodes to a row's command exactly when it meets the row's mask and match. -/

namespace Sys2Proof

/-! ### Decoding and encoding -/

theorem decode_ofFields_config (a16 : BitVec 16) :
    decode (ofFields 1 0 0 a16 0) = .instr (.config a16.toNat) := by
  simp [decode, decodeConfig]

theorem decode_ofFields_configr (a16 : BitVec 16) (a32 : BitVec 32) :
    decode (ofFields 1 1 0 a16 a32) = .instr (.configr a16.toNat a32.toInt) := by
  simp [decode, decodeConfig]

theorem decode_ofFields_init (a16 : BitVec 16) :
    decode (ofFields 2 0 0 a16 0) = .instr (.init a16.toNat) := by
  simp [decode, decodeInit]

/-- Command by command, from the fields the encoder sets. -/
theorem decode_encode {i : Instr} (h : i.WellFormed) : decode (encode i) = .instr i := by
  cases i with
  | config bits =>
    have hb := wellFormed_config.mp h
    rw [encode_config hb, decode_ofFields_config, BitVec.toNat_ofNat, Nat.mod_eq_of_lt hb]
  | configr bits rounds =>
    obtain ⟨hb, hlo, hhi⟩ := wellFormed_configr.mp h
    have hr : (BitVec.ofInt 32 rounds).toInt = rounds :=
      BitVec.toInt_ofInt_eq_self (by decide) (by simpa using hlo) (by simpa using hhi)
    rw [encode_configr hb, decode_ofFields_configr, BitVec.toNat_ofNat, Nat.mod_eq_of_lt hb, hr]
  | init keylen =>
    have hk := wellFormed_init.mp h
    rw [encode_init hk, decode_ofFields_init, BitVec.toNat_ofNat, Nat.mod_eq_of_lt hk]
  | encb | decb | enc | dec => rfl

/-- What the encoder makes of operands that are a word's own fields. -/
theorem encode_config_toNat (a16 : BitVec 16) : encode (.config a16.toNat) = ofFields 1 0 0 a16 0 := by
  simp [encode_config a16.isLt]

theorem encode_configr_toNat_toInt (a16 : BitVec 16) (a32 : BitVec 32) :
    encode (.configr a16.toNat a32.toInt) = ofFields 1 1 0 a16 a32 := by
  simp [encode_configr a16.isLt]

theorem encode_init_toNat (a16 : BitVec 16) : encode (.init a16.toNat) = ofFields 2 0 0 a16 0 := by
  simp [encode_init a16.isLt]

theorem encode_of_decode {v : Word} {i : Instr} (h : decode v = .instr i) : encode i = v := by
  obtain ⟨hv, hd⟩ | ⟨hv, hd⟩ | ⟨hv, hd⟩ | ⟨hv, hd⟩ | ⟨hv, hd⟩ | ⟨hv, hd⟩ | ⟨hv, hd⟩ | ⟨why, hd⟩ := decode_cases v <;>
    cases h.symm.trans hd
  · rw [encode_config_toNat, ← hv]
  · rw [encode_configr_toNat_toInt, ← hv]
  · rw [encode_init_toNat, ← hv]
  all_goals exact hv.symm

theorem decode_eq_instr_iff {v : Word} {i : Instr} (h : i.WellFormed) : decode v = .instr i ↔ v = encode i :=
  ⟨fun hd => (encode_of_decode hd).symm, fun hv => hv ▸ decode_encode h⟩

/-! ### The masks of R52 -/

theorem mask_low_eq_iff {v : Word} {op : BitVec 8} {rx : BitVec 1} {rsv : BitVec 7} :
    v &&& 0x000000000000FFFF = ofFields op rx rsv 0 0 ↔ v = ofFields op rx rsv (fieldA16 v) (fieldA32 v) := by
  rw [mask_low]
  constructor
  · intro h
    obtain ⟨rfl, rfl, rfl, -, -⟩ := ofFields_inj h
    exact (ofFields_fields v).symm
  · intro h
    obtain ⟨hop, hrx, hrsv, -, -⟩ := ofFields_inj ((ofFields_fields v).trans h)
    rw [hop, hrx, hrsv]

theorem mask_high_eq_iff {v : Word} {op : BitVec 8} {rx : BitVec 1} {rsv : BitVec 7} {a32 : BitVec 32} :
    v &&& 0xFFFFFFFF0000FFFF = ofFields op rx rsv 0 a32 ↔ v = ofFields op rx rsv (fieldA16 v) a32 := by
  rw [mask_high]
  constructor
  · intro h
    obtain ⟨rfl, rfl, rfl, -, rfl⟩ := ofFields_inj h
    exact (ofFields_fields v).symm
  · intro h
    obtain ⟨hop, hrx, hrsv, -, ha32⟩ := ofFields_inj ((ofFields_fields v).trans h)
    rw [hop, hrx, hrsv, ha32]

/-! ### The rows of R52 -/

theorem config_row_iff (v : Word) :
    v &&& 0xFFFFFFFF0000FFFF = 0x0000000000000001 ↔ decode v = .instr (.config (fieldA16 v).toNat) := by
  rw [show (0x0000000000000001 : Word) = ofFields 1 0 0 0 0 from rfl, mask_high_eq_iff,
    decode_eq_instr_iff (wellFormed_config.mpr (fieldA16 v).isLt), encode_config_toNat]

theorem configr_row_iff (v : Word) :
    v &&& 0x000000000000FFFF = 0x0000000000000101 ↔
      decode v = .instr (.configr (fieldA16 v).toNat (fieldA32 v).toInt) := by
  have hwf : (Instr.configr (fieldA16 v).toNat (fieldA32 v).toInt).WellFormed :=
    wellFormed_configr.mpr ⟨(fieldA16 v).isLt, (fieldA32 v).le_toInt, (fieldA32 v).toInt_lt⟩
  rw [show (0x0000000000000101 : Word) = ofFields 1 1 0 0 0 from rfl, mask_low_eq_iff, decode_eq_instr_iff hwf,
    encode_configr_toNat_toInt]

theorem init_row_iff (v : Word) :
    v &&& 0xFFFFFFFF0000FFFF = 0x0000000000000002 ↔ decode v = .instr (.init (fieldA16 v).toNat) := by
  rw [show (0x0000000000000002 : Word) = ofFields 2 0 0 0 0 from rfl, mask_high_eq_iff,
    decode_eq_instr_iff (wellFormed_init.mpr (fieldA16 v).isLt), encode_init_toNat]

/-- ILLEGAL is what is left when none of the seven commands is decoded. -/
theorem decode_illegal_iff (v : Word) :
    (decode v ≠ .instr (.config (fieldA16 v).toNat) ∧
      decode v ≠ .instr (.configr (fieldA16 v).toNat (fieldA32 v).toInt) ∧
      decode v ≠ .instr (.init (fieldA16 v).toNat) ∧ decode v ≠ .instr .encb ∧ decode v ≠ .instr .decb ∧
      decode v ≠ .instr .enc ∧ decode v ≠ .instr .dec) ↔
    ∃ why, decode v = .illegal why := by
  constructor
  · rintro ⟨hconfig, hconfigr, hinit, hencb, hdecb, henc, hdec⟩
    simpa only [hconfig, hconfigr, hinit, hencb, hdecb, henc, hdec, and_false, false_or] using decode_cases v
  · rintro ⟨why, h⟩
    simp [h]

/-- Settles O3, row by row; what meets no row is illegal, since the seven rows are all the decoder's commands. -/
theorem decodeSelectsByMaskAndMatch : Obligations.DecodeSelectsByMaskAndMatch := by
  unfold Obligations.DecodeSelectsByMaskAndMatch
  intro v
  have hencb : v = 3 ↔ decode v = .instr .encb := (decode_eq_instr_iff (i := .encb) rfl).symm
  have hdecb : v = 4 ↔ decode v = .instr .decb := (decode_eq_instr_iff (i := .decb) rfl).symm
  have henc : v = 5 ↔ decode v = .instr .enc := (decode_eq_instr_iff (i := .enc) rfl).symm
  have hdec : v = 6 ↔ decode v = .instr .dec := (decode_eq_instr_iff (i := .dec) rfl).symm
  refine ⟨config_row_iff v, configr_row_iff v, init_row_iff v, hencb, hdecb, henc, hdec, ?_⟩
  rw [← decode_illegal_iff]
  simp only [ne_eq, config_row_iff, configr_row_iff, init_row_iff, hencb, hdecb, henc, hdec]

end Sys2Proof
end

section
/-! CONFIG, CONFIGR and INIT (spec/40_config_init.md): the next state of each for every operand, and that a failing one
changes only st.err (R67). -/

namespace Sys2Proof.Machine

/-! ### The command words -/

/-- A signed 32-bit operand placed in a word, as its residue modulo 2^32 and as the encoder places it. -/
theorem ofNat_emod_toNat_eq_zeroExtend_ofInt (rounds : Int) :
    BitVec.ofNat 64 (rounds % 2 ^ 32).toNat = (BitVec.ofInt 32 rounds).zeroExtend 64 := by
  apply BitVec.eq_of_toNat_eq
  simp [BitVec.toNat_ofInt]

theorem decode_config_word {bits : Nat} (h : bits < 65536) :
    decode (0x01 ||| (BitVec.ofNat 64 bits <<< 16)) = .instr (.config bits) :=
  decode_encode (wellFormed_config.mpr h)

theorem decode_configr_word {bits : Nat} {rounds : Int} (hb : bits < 65536) (hlo : -2 ^ 31 ≤ rounds)
    (hhi : rounds < 2 ^ 31) :
    decode (0x101 ||| (BitVec.ofNat 64 bits <<< 16) ||| (BitVec.ofNat 64 (rounds % 2 ^ 32).toNat <<< 32)) =
      .instr (.configr bits rounds) := by
  rw [ofNat_emod_toNat_eq_zeroExtend_ofInt]
  exact decode_encode (wellFormed_configr.mpr ⟨hb, hlo, hhi⟩)

theorem decode_init_word {keylen : Nat} (h : keylen < 65536) :
    decode (0x02 ||| (BitVec.ofNat 64 keylen <<< 16)) = .instr (.init keylen) :=
  decode_encode (wellFormed_init.mpr h)

/-! ### Block sizes, rounds and widths -/

theorem ofBits_eq_none_iff {bits : Nat} :
    BlockWidth.ofBits bits = none ↔ bits ≠ 256 ∧ bits ≠ 512 ∧ bits ≠ 1024 := by
  constructor
  · intro h
    refine ⟨?_, ?_, ?_⟩ <;> (rintro rfl; cases h)
  · rintro ⟨h256, h512, h1024⟩
    simp [BlockWidth.ofBits, h256, h512, h1024]

theorem exists_ofBits_eq_some {bits : Nat} (h : bits = 256 ∨ bits = 512 ∨ bits = 1024) :
    ∃ n, BlockWidth.ofBits bits = some n := by
  rcases h with rfl | rfl | rfl
  · exact ⟨.words4, rfl⟩
  · exact ⟨.words8, rfl⟩
  · exact ⟨.words16, rfl⟩

/-- The width selected has as many bits as the operand says. -/
theorem words_of_ofBits {bits : Nat} {n : BlockWidth} (h : BlockWidth.ofBits bits = some n) : 64 * n.words = bits := by
  rcases ofBits_eq_some h with ⟨rfl, rfl⟩ | ⟨rfl, rfl⟩ | ⟨rfl, rfl⟩ <;> rfl

/-- A positive signed 32-bit round count is what st.nr then holds. -/
theorem toNat_ofInt_of_pos {rounds : Int} (hpos : 0 < rounds) (hhi : rounds < 2 ^ 31) :
    ((BitVec.ofInt 32 rounds).toNat : Int) = rounds := by
  rw [BitVec.toNat_ofInt]
  omega

theorem words_of_ne_unset {w : BlockWidth} (h : w ≠ .unset) : w.words = 4 ∨ w.words = 8 ∨ w.words = 16 := by
  cases w with
  | unset => exact absurd rfl h
  | words4 => exact .inl rfl
  | words8 => exact .inr (.inl rfl)
  | words16 => exact .inr (.inr rfl)

/-! ### CONFIG and CONFIGR -/

/-- Settles O17, by the block size the operand selects. -/
theorem configSelectsBlockSize : Obligations.ConfigSelectsBlockSize := by
  unfold Obligations.ConfigSelectsBlockSize
  intro bits s
  refine ⟨decode_config_word, ?_⟩
  rcases execConfig_cases bits s with ⟨hbits, hexec⟩ | ⟨n, hbits, hexec⟩
  · obtain ⟨h256, h512, h1024⟩ := ofBits_eq_none_iff.mp hbits
    rw [if_neg h256, if_neg h512, if_neg h1024]
    exact hexec
  · rcases ofBits_eq_some hbits with ⟨rfl, rfl⟩ | ⟨rfl, rfl⟩ | ⟨rfl, rfl⟩ <;> exact hexec

theorem execConfigr_of_invalidBlockSize {bits : Nat} (rounds : Int) (s : State)
    (h : BlockWidth.ofBits bits = none) :
    execConfigr bits rounds s = .next (raiseError false .invalidBlockSize s) := by
  simp [execConfigr, h]

theorem execConfigr_of_invalidRoundCount {bits : Nat} {n : BlockWidth} {rounds : Int} (s : State)
    (h : BlockWidth.ofBits bits = some n) (hr : rounds ≤ 0 ∨ rounds % 4 ≠ 0) :
    execConfigr bits rounds s = .next (raiseError false .invalidRoundCount s) := by
  simp only [execConfigr, h, if_pos hr]

theorem execConfigr_of_valid {bits : Nat} {n : BlockWidth} {rounds : Int} (s : State)
    (h : BlockWidth.ofBits bits = some n) (hr : ¬(rounds ≤ 0 ∨ rounds % 4 ≠ 0)) :
    execConfigr bits rounds s = .next (applyConfig n (BitVec.ofInt 32 rounds) s) := by
  simp only [execConfigr, h, if_neg hr]

/-- Settles O18, one equation of CONFIGR for each clause. -/
theorem configrSelectsBlockSizeAndRounds : Obligations.ConfigrSelectsBlockSizeAndRounds := by
  unfold Obligations.ConfigrSelectsBlockSizeAndRounds
  intro bits rounds s hb hlo hhi
  refine ⟨decode_configr_word hb hlo hhi, fun hbad => ?_, fun hbits hbad => ?_, fun hbits hgood => ?_⟩
  · exact execConfigr_of_invalidBlockSize rounds s (ofBits_eq_none_iff.mpr hbad)
  · obtain ⟨n, hn⟩ := exists_ofBits_eq_some hbits
    exact execConfigr_of_invalidRoundCount s hn hbad
  · obtain ⟨n, hn⟩ := exists_ofBits_eq_some hbits
    exact ⟨_, execConfigr_of_valid s hn (by omega), toNat_ofInt_of_pos hgood.1 hhi, words_of_ofBits hn, rfl⟩

/-! ### INIT -/

theorem execInit_of_notConfigured (keylen : Nat) {s : State} (h : s.cfgValid = false) :
    execInit keylen s = .next (raiseError false .notConfigured s) := by
  simp [execInit, h]

theorem execInit_of_invalidKeySize {keylen : Nat} {s : State} (hc : s.cfgValid = true)
    (hk : ¬(keylen = 4 ∨ keylen = 8 ∨ keylen = 16) ∨ keylen ≠ s.nw.words) :
    execInit keylen s = .next (raiseError false .invalidKeySize s) := by
  rcases execInit_cases keylen s with ⟨h, -⟩ | ⟨-, -, h⟩ | ⟨-, hlen, hnw, -⟩
  · simp [hc] at h
  · exact h
  · exact (hk.elim (· hlen) (· hnw)).elim

theorem execInit_of_valid {keylen : Nat} {s : State} (hc : s.cfgValid = true) (hnw : s.nw ≠ .unset)
    (hk : keylen = s.nw.words) : execInit keylen s = .next (loadedKey s) := by
  rcases execInit_cases keylen s with ⟨h, -⟩ | ⟨-, h, -⟩ | ⟨-, -, -, h⟩
  · simp [hc] at h
  · exact (h.elim (· (hk ▸ words_of_ne_unset hnw)) (· hk)).elim
  · exact h

theorem firstWords_toList (w : BlockWidth) (v : Vector Word 16) :
    (firstWords w v).toList = v.toList.take w.words := by
  have hw := w.words_le
  refine List.ext_getElem (by simpa using hw) fun i h _ => ?_
  simpa using firstWords_getElem w v (by simpa using h)

/-- The key words of the ring INIT loads (R63). -/
theorem loadedKey_keyRing_key (s : State) {i : Nat} (h : i < s.nw.words) (h16 : i < 16) :
    (loadedKey s).keyRing[i] = s.keyIn[i] := by
  rw [← firstWords_getElem s.nw s.keyIn h]
  exact keyRingOf_getElem_key _ _ h _

/-- The parity word of the ring INIT loads (R64). -/
theorem loadedKey_keyRing_parity (s : State) (h : s.nw.words < 17) :
    (loadedKey s).keyRing[s.nw.words] = c240 ^^^ xorWords (s.keyIn.toList.take s.nw.words) := by
  rw [← firstWords_toList, ← parityWord_eq]
  exact keyRingOf_getElem_parity _ _ h

/-- Settles O19: the two errors, then the rings word by word. -/
theorem initLoadsKeyAndTweak : Obligations.InitLoadsKeyAndTweak := by
  unfold Obligations.InitLoadsKeyAndTweak
  intro keylen s
  refine ⟨decode_init_word, execInit_of_notConfigured keylen, execInit_of_invalidKeySize, fun hc hnw hk => ?_⟩
  refine ⟨loadedKey s, execInit_of_valid hc hnw hk, ?_⟩
  subst hk
  exact ⟨fun i h16 hi => loadedKey_keyRing_key s hi h16, loadedKey_keyRing_parity s, rfl, rfl⟩

/-! ### Failures -/

/-- CONFIG, CONFIGR and INIT are neither block nor byte commands. -/
theorem configuration_not_block_not_bytes {i : Instr} (h : isConfigure i = true ∨ isInit i = true) :
    isBlockCommand i = false ∧ isBytesCommand i = false := by
  cases i with
  | config | configr | init => exact ⟨rfl, rfl⟩
  | encb | decb | enc | dec => simp [isConfigure, isInit] at h

/-- Settles O20: of what a command can do, only a raised error leaves a code, and DST_LEN is cleared by ENC and DEC
alone. -/
theorem failedConfigurationChangesOnlyErr : Obligations.FailedConfigurationChangesOnlyErr := by
  unfold Obligations.FailedConfigurationChangesOnlyErr
  intro i s t hi hexec herr
  obtain ⟨hblock, hbytes⟩ := configuration_not_block_not_bytes hi
  rcases exec_next hexec with ⟨b, e, rfl, hb⟩ | ⟨-, n, r, rfl⟩ | ⟨-, rfl⟩ | ⟨h, -⟩ | ⟨h, -⟩
  · have hb : b = false := by simpa [hbytes] using hb
    subst hb
    rfl
  · exact absurd rfl herr
  · exact absurd rfl herr
  · simp [hblock] at h
  · simp [hbytes] at h

end Sys2Proof.Machine
end

section
/-! The block transform: MIX and UN-MIX, the word permutation and the sub-keys word by word, and BlockEncrypt inverted
round by round (R74 to R82). -/

namespace Sys2Proof.Machine

/-! ### MIX and UN-MIX -/

theorem rotl64_eq_rotateLeft (x : Word) {r : Nat} (h : r < 64) : rotl64 x r = x.rotateLeft r := by
  rw [BitVec.rotateLeft_def, Nat.mod_eq_of_lt h, rotl64]
  by_cases h0 : r = 0
  · simp [h0, BitVec.ushiftRight_eq_zero]
  · rw [if_neg h0]

theorem rotr64_eq_rotateRight (x : Word) {r : Nat} (h : r < 64) : rotr64 x r = x.rotateRight r := by
  rw [rotr64, rotl64_eq_rotateLeft x (Nat.mod_lt _ (by decide))]
  by_cases h0 : r = 0
  · simp [h0, BitVec.rotateLeft_def, BitVec.rotateRight_def, BitVec.ushiftRight_eq_zero]
  · have hr : (64 - r) % 64 = 64 - r := Nat.mod_eq_of_lt (by omega)
    have hs : 64 - (64 - r) = r := by omega
    rw [BitVec.rotateLeft_def, BitVec.rotateRight_def, hr, hr, hs, Nat.mod_eq_of_lt h, BitVec.or_comm]

/-- A word rotated left and back by the same amount. -/
theorem rotr64_rotl64 (x : Word) {r : Nat} (h : r < 64) : rotr64 (rotl64 x r) r = x := by
  rw [rotr64_eq_rotateRight _ h, rotl64_eq_rotateLeft x h]
  ext i hi
  simp only [BitVec.getElem_rotateRight, BitVec.getElem_rotateLeft, Nat.mod_eq_of_lt h]
  by_cases hwrap : i < 64 - r
  · simp [hwrap]
  · have hlow : i - (64 - r) < r := by omega
    have hback : 64 - r + (i - (64 - r)) = i := by omega
    simp [hwrap, hlow, hback]

theorem unmix_mix (x0 x1 : Word) {r : Nat} (h : r < 64) : unmix (mix x0 x1 r).1 (mix x0 x1 r).2 r = (x0, x1) := by
  have hrot : rotr64 ((rotl64 x1 r ^^^ (x0 + x1)) ^^^ (x0 + x1)) r = x1 := by
    rw [BitVec.xor_assoc, BitVec.xor_self, BitVec.xor_zero, rotr64_rotl64 x1 h]
  simp only [unmix, mix, hrot, BitVec.add_sub_cancel]

/-- Settles O22: the two rotations of the model are those of Lean's bit vectors. -/
theorem mixAddsRotatesXors : Obligations.MixAddsRotatesXors := by
  unfold Obligations.MixAddsRotatesXors
  intro x0 x1 r h
  exact ⟨by rw [mix, rotl64_eq_rotateLeft x1 h], by rw [unmix, rotr64_eq_rotateRight _ h]⟩

/-- Settles O23: the two XORs with y0 cancel, and so do the two rotations. -/
theorem unmixInvertsMix : Obligations.UnmixInvertsMix := by
  unfold Obligations.UnmixInvertsMix
  exact fun x0 x1 _ h => unmix_mix x0 x1 h

theorem unmixBlock_mixBlock {w : BlockWidth} (c : CipherContext w) (d : Nat) (e : Block w) :
    unmixBlock c d (mixBlock c d e) = e := by
  refine block_ext_pairs fun j hj => ?_
  have hpair := unmix_mix (e[2 * j]'(BlockWidth.even_lt hj)) (e[2 * j + 1]'(BlockWidth.odd_lt hj))
    ((c.rotRow d)[j]).isLt
  rw [unmixBlock, mapPairs_getElem_even _ _ _ hj, mapPairs_getElem_odd _ _ _ hj, mixBlock,
    mapPairs_getElem_even _ _ _ hj, mapPairs_getElem_odd _ _ _ hj, hpair]
  exact ⟨rfl, rfl⟩

/-! ### The word permutation -/

theorem permInv_getElem (c : CoreConfig) {w : BlockWidth} (i : Fin w.words) :
    (c.permInv w)[i] = inverseAt (c.perm w) i := by
  simp [CoreConfig.permInv]

theorem perm_permInv {c : CoreConfig} (h : ConfigLegal c) {w : BlockWidth} (i : Fin w.words) :
    (c.perm w)[(c.permInv w)[i]] = i := by
  simp only [permInv_getElem]
  exact inverseAt_spec (perm_isPermutation h w) i

theorem permInv_perm {c : CoreConfig} (h : ConfigLegal c) {w : BlockWidth} (i : Fin w.words) :
    (c.permInv w)[(c.perm w)[i]] = i :=
  (perm_isPermutation h w).injective (perm_permInv h _)

theorem permute_getElem {w : BlockWidth} (c : CipherContext w) (f : Block w) (i : Fin w.words) :
    (permute c f)[i] = f[(c.cfg.perm w)[i]] := by
  simp [permute]

theorem invPermute_getElem {w : BlockWidth} (c : CipherContext w) (v : Block w) (i : Fin w.words) :
    (invPermute c v)[i] = v[(c.cfg.permInv w)[i]] := by
  simp [invPermute]

theorem invPermute_permute {w : BlockWidth} {c : CipherContext w} (h : ConfigLegal c.cfg) (f : Block w) :
    invPermute c (permute c f) = f := by
  refine Vector.ext fun i hi => ?_
  calc (invPermute c (permute c f))[i]
      = f[(c.cfg.perm w)[(c.cfg.permInv w)[(⟨i, hi⟩ : Fin w.words)]]] := by
        rw [← permute_getElem, ← invPermute_getElem]; rfl
    _ = f[i] := by simp only [perm_permInv h]; rfl

/-- Settles O25: the table inverse of R71 is an inverse on both sides. -/
theorem invPermuteInvertsPermute : Obligations.InvPermuteInvertsPermute := by
  unfold Obligations.InvPermuteInvertsPermute
  intro w c f h
  exact ⟨permInv_perm h, permute_getElem c f, invPermute_getElem c f, invPermute_permute h f⟩

/-! ### The sub-keys -/

theorem subKey_getElem {w : BlockWidth} (c : CipherContext w) (s : Nat) {i : Nat} (h : i < w.words)
    (hk : (s + i) % (w.words + 1) < 17) :
    (subKey c s)[i] = c.keyRing[(s + i) % (w.words + 1)] + subkeyAddend c s i := by
  simp [subKey]

theorem subkeyAddend_low {w : BlockWidth} (c : CipherContext w) (s : Nat) {i : Nat} (h : i + 3 < w.words) :
    subkeyAddend c s i = 0 := by
  rw [subkeyAddend, if_neg (by omega), if_neg (by omega), if_neg (by omega)]

theorem subkeyAddend_atN3 {w : BlockWidth} (c : CipherContext w) (s : Nat) {i : Nat} (h : i + 3 = w.words) :
    subkeyAddend c s i = sumTerms c.cfg.layout.atN3 c.tweakRing s := by
  rw [subkeyAddend, if_pos h]

theorem subkeyAddend_atN2 {w : BlockWidth} (c : CipherContext w) (s : Nat) {i : Nat} (h : i + 2 = w.words) :
    subkeyAddend c s i = sumTerms c.cfg.layout.atN2 c.tweakRing s := by
  rw [subkeyAddend, if_neg (by omega), if_pos h]

theorem subkeyAddend_atN1 {w : BlockWidth} (c : CipherContext w) (s : Nat) {i : Nat} (h : i + 1 = w.words) :
    subkeyAddend c s i = sumTerms c.cfg.layout.atN1 c.tweakRing s := by
  rw [subkeyAddend, if_neg (by omega), if_neg (by omega), if_pos h]

/-- The terms of the decided layout (R79). -/
theorem sumTerms_defaultLayout (ring : Vector Word 3) (s : Nat) (h0 : s % 3 < 3) (h1 : (s + 1) % 3 < 3) :
    sumTerms defaultLayout.atN3 ring s = ring[s % 3] ∧ sumTerms defaultLayout.atN2 ring s = ring[(s + 1) % 3] ∧
      sumTerms defaultLayout.atN1 ring s = BitVec.ofNat 64 s := by
  obtain ⟨hidx0, hidx1⟩ := tweakIndex_default s
  simp [defaultLayout, hidx0, hidx1]

/-- Settles O26, by the place of the word among the last three. -/
theorem subKeyFollowsTheSchedule : Obligations.SubKeyFollowsTheSchedule := by
  unfold Obligations.SubKeyFollowsTheSchedule
  intro w c s i h hk h0 h1 hlayout
  obtain ⟨hn3, hn2, hn1⟩ := sumTerms_defaultLayout c.tweakRing s h0 h1
  rw [subKey_getElem c s h hk]
  refine ⟨fun hi => ?_, fun hi => ?_, fun hi => ?_, fun hi => ?_⟩
  · rw [subkeyAddend_low c s hi]
    exact BitVec.add_zero _
  · rw [subkeyAddend_atN3 c s hi, hlayout, hn3]
  · rw [subkeyAddend_atN2 c s hi, hlayout, hn2]
  · rw [subkeyAddend_atN1 c s hi, hlayout, hn1]

/-! ### BlockEncrypt word by word -/

/-- The block that round d mixes: the sub-key is added where d mod 4 = 0 (R80). -/
def injected {w : BlockWidth} (c : CipherContext w) (d : Nat) (v : Block w) : Block w :=
  if d % 4 = 0 then addWords v (subKey c (d / 4)) else v

theorem injected_getElem {w : BlockWidth} (c : CipherContext w) (d : Nat) (v : Block w) (k : Fin w.words) :
    (injected c d v)[k] = if d % 4 = 0 then v[k] + (subKey c (d / 4))[k] else v[k] := by
  rw [injected]
  split
  · exact addWords_getElem v _ k.isLt
  · rfl

theorem encryptRound_getElem {w : BlockWidth} (c : CipherContext w) (d : Nat) (v : Block w) (i : Fin w.words) :
    (encryptRound c d v)[i] = (mixBlock c d (injected c d v))[(c.cfg.perm w)[i]] :=
  permute_getElem c _ i

theorem mixBlock_getElem_even {w : BlockWidth} (c : CipherContext w) (d : Nat) (e : Block w) (j : Fin w.pairs)
    {a b : Fin w.words} (ha : a.val = 2 * j.val) (hb : b.val = 2 * j.val + 1) :
    (mixBlock c d e)[a] = e[a] + e[b] := by
  obtain rfl : a = ⟨2 * j.val, BlockWidth.even_lt j.isLt⟩ := Fin.ext ha
  obtain rfl : b = ⟨2 * j.val + 1, BlockWidth.odd_lt j.isLt⟩ := Fin.ext hb
  exact mapPairs_getElem_even mix _ e j.isLt

theorem mixBlock_getElem_odd {w : BlockWidth} (c : CipherContext w) (d : Nat) (e : Block w) (j : Fin w.pairs)
    {a b : Fin w.words} (ha : a.val = 2 * j.val) (hb : b.val = 2 * j.val + 1) :
    (mixBlock c d e)[b] = (e[b]).rotateLeft ((c.rotRow d)[j]).val ^^^ (e[a] + e[b]) := by
  obtain rfl : a = ⟨2 * j.val, BlockWidth.even_lt j.isLt⟩ := Fin.ext ha
  obtain rfl : b = ⟨2 * j.val + 1, BlockWidth.odd_lt j.isLt⟩ := Fin.ext hb
  rw [← rotl64_eq_rotateLeft _ ((c.rotRow d)[j]).isLt]
  exact mapPairs_getElem_odd mix _ e j.isLt

/-- Settles O27: word i of a round is word PERM[i] of the mixed block, which is one word of a mixed pair. -/
theorem blockEncryptRunsTheRounds : Obligations.BlockEncryptRunsTheRounds := by
  unfold Obligations.BlockEncryptRunsTheRounds
  intro w c p
  refine ⟨rfl, fun i => addWords_getElem _ _ i.isLt, fun d hd j i a b ha hb => ?_⟩
  simp only [← injected_getElem, encryptRounds, encryptRound_getElem]
  constructor
  · intro hperm
    simp only [hperm]
    exact mixBlock_getElem_even c d _ j ha hb
  · intro hperm
    simp only [hperm]
    exact mixBlock_getElem_odd c d _ j ha hb

/-! ### BlockDecrypt undoes BlockEncrypt -/

theorem decryptRound_encryptRound {w : BlockWidth} {c : CipherContext w} (h : ConfigLegal c.cfg) (d : Nat)
    (v : Block w) : decryptRound c d (encryptRound c d v) = v := by
  simp only [decryptRound, encryptRound, invPermute_permute h, unmixBlock_mixBlock]
  split
  · exact subWords_addWords v _
  · rfl

/-- The rounds undone in descending order: the last round encrypted is the first decrypted. -/
theorem decryptRounds_encryptRounds {w : BlockWidth} {c : CipherContext w} (h : ConfigLegal c.cfg) (k : Nat)
    (v : Block w) : decryptRounds c k (encryptRounds c k v) = v := by
  induction k with
  | zero => rfl
  | succ k ih => rw [encryptRounds, decryptRounds, decryptRound_encryptRound h, ih]

theorem blockDecrypt_blockEncrypt {w : BlockWidth} {c : CipherContext w} (h : ConfigLegal c.cfg) (p : Block w) :
    blockDecrypt c (blockEncrypt c p) = p := by
  rw [blockDecrypt, blockEncrypt, subWords_addWords, decryptRounds_encryptRounds h]

theorem finite_block (w : BlockWidth) : Finite (Block w) := by
  refine Finite.of_injective (fun (b : Block w) (i : Fin w.words) => b[i]) fun a b hab => ?_
  exact Vector.ext fun i hi => congrFun hab ⟨i, hi⟩

/-- Settles O28: with a left inverse BlockEncrypt is injective, and an injection of the finite set of blocks into itself
is onto. -/
theorem blockDecryptInvertsBlockEncrypt : Obligations.BlockDecryptInvertsBlockEncrypt := by
  unfold Obligations.BlockDecryptInvertsBlockEncrypt
  intro w c h
  have hleft : Function.LeftInverse (blockDecrypt c) (blockEncrypt c) := blockDecrypt_blockEncrypt h
  have := finite_block w
  exact ⟨hleft, Finite.injective_iff_bijective.mp hleft.injective⟩

end Sys2Proof.Machine
end

section
/-! ENCB and DECB: without a key only st.err changes; with one, BLK_OUT receives the transformed block (R90, R91). -/

namespace Sys2Proof.Machine

/-- What both block commands do, whatever the transform: the error without a key, and with one the transformed block in
the first NW words of BLK_OUT, with nothing else changed but st.err. -/
theorem blockCommand_spec (f : {w : BlockWidth} → CipherContext w → Block w → Block w) (s : State) :
    (s.keyValid = false → blockCommand f s = .next { s with err := 7 }) ∧
    (s.keyValid = true →
      ∃ t, blockCommand f s = .next t ∧ t = { s with blkOut := t.blkOut, err := 0 } ∧
        (∀ i (h : i < s.nw.words) (h16 : i < 16),
          t.blkOut[i] = (f s.cipher (firstWords s.nw s.blkIn))[i]) ∧
        (∀ i (h16 : i < 16), s.nw.words ≤ i → t.blkOut[i] = s.blkOut[i])) := by
  rcases blockCommand_cases f s with ⟨hkey, hexec⟩ | ⟨hkey, hexec⟩
  · exact ⟨fun _ => hexec, fun h => by simp [hkey] at h⟩
  · exact ⟨fun h => by simp [hkey] at h, fun _ => ⟨_, hexec, rfl,
      fun i h h16 => withBlock_getElem_low _ _ h h16, fun i h16 h => withBlock_getElem_high _ _ h h16⟩⟩

/-- Settles O29: the word is the one ENCB encodes to, and ENCB is the block command of BlockEncrypt. -/
theorem encbWritesTheEncryptedBlock : Obligations.EncbWritesTheEncryptedBlock := by
  unfold Obligations.EncbWritesTheEncryptedBlock
  intro s
  obtain ⟨hnoKey, hrun⟩ := blockCommand_spec blockEncrypt s
  refine ⟨decode_encode (rfl : Instr.encb.WellFormed), hnoKey, fun hkey => ?_⟩
  obtain ⟨t, hexec, hframe, hlow, hhigh⟩ := hrun hkey
  exact ⟨t, hexec, hframe, hlow, fun i h _ => firstWords_getElem s.nw s.blkIn h, hhigh⟩

/-- Settles O30: the word is the one DECB encodes to, and DECB is the block command of BlockDecrypt. -/
theorem decbWritesTheDecryptedBlock : Obligations.DecbWritesTheDecryptedBlock := by
  unfold Obligations.DecbWritesTheDecryptedBlock
  exact fun s => ⟨decode_encode (rfl : Instr.decb.WellFormed), blockCommand_spec blockDecrypt s⟩

end Sys2Proof.Machine
end

section
/-! Padding and the terminator scan, the bytes ENC and DEC leave in host memory, and the round trip of the two (R100 to
R112). -/

namespace Sys2Proof.Machine

theorem bytes_pos {w : BlockWidth} (h : w ≠ .unset) : 0 < w.bytes := by
  have := words_of_ne_unset h
  unfold BlockWidth.bytes
  omega

/-! ### Padding -/

theorem pad_length {B : Nat} (hB : 0 < B) (m : List Byte) : (pad B m).length = (m.length / B + 1) * B := by
  have hr := Nat.mod_lt m.length hB
  have hdiv := Nat.div_add_mod' m.length B
  simp only [pad, List.length_append, List.length_replicate, List.length_singleton, Nat.add_one_mul]
  omega

theorem take_pad (B : Nat) (m : List Byte) : (pad B m).take m.length = m := by
  simp [pad]

/-- The bytes of a message after its whole blocks, which the terminator-bearing chunk begins with (R102). -/
def remainder (B : Nat) (m : List Byte) : List Byte := m.drop (m.length / B * B)

theorem remainder_length (B : Nat) (m : List Byte) : (remainder B m).length = m.length % B := by
  rw [remainder, List.length_drop, Nat.mod_eq_sub_div_mul]

theorem remainder_length_lt {B : Nat} (hB : 0 < B) (m : List Byte) : (remainder B m).length < B := by
  rw [remainder_length]
  exact Nat.mod_lt _ hB

theorem take_whole_length (B : Nat) (m : List Byte) : (m.take (m.length / B * B)).length = m.length / B * B :=
  List.length_take_of_le (Nat.div_mul_le_self _ _)

/-- The last block of a padded message is its terminator-bearing chunk. -/
theorem drop_pad (B : Nat) (m : List Byte) : (pad B m).drop (m.length / B * B) = lastChunk B (remainder B m) := by
  rw [pad_eq, List.drop_left' (take_whole_length B m), remainder]

theorem mapChunks_pad (f : List Byte → List Byte) {B : Nat} (hB : 0 < B) (m : List Byte) :
    mapChunks f B (pad B m) = mapChunks f B (m.take (m.length / B * B)) ++ f (lastChunk B (remainder B m)) := by
  rw [pad_eq, mapChunks_append f hB _ _ _ (take_whole_length B m), ← remainder,
    mapChunks_one f hB (lastChunk_length (remainder_length_lt hB m))]

/-- Settles O33, from the quotient and the remainder of the message length by B. -/
theorem paddedLengthIsNextMultiple : Obligations.PaddedLengthIsNextMultiple := by
  unfold Obligations.PaddedLengthIsNextMultiple
  intro B m hB
  have hr := Nat.mod_lt m.length hB
  have hdiv := Nat.div_add_mod' m.length B
  have hlen := pad_length hB m
  have hsucc := Nat.add_one_mul (m.length / B) B
  refine ⟨hlen, by omega, by omega, fun k hk => ?_⟩
  rw [hlen]
  exact Nat.mul_le_mul_right B ((Nat.div_lt_iff_lt_mul hB).mpr hk)

/-! ### The terminator scan -/

/-- The scan reads 0 beyond the block, which is no terminator. -/
theorem getD_eq_terminator_iff (buf : List Byte) (j : Nat) : buf.getD j 0 = terminator ↔ buf[j]? = some 0xFF := by
  rw [List.getD_eq_getElem?_getD]
  cases buf[j]? with
  | none => decide
  | some b => simp [terminator]

/-- What an answered index tells, in a block of B bytes. -/
theorem terminatorScan_some {B : Nat} {buf : List Byte} (hbuf : buf.length = B) {k : Nat}
    (h : terminatorScan B buf = some k) : k < B ∧ buf[k]? = some 0xFF ∧ ∀ j, k < j → buf[j]? ≠ some 0xFF := by
  have hspec := scanBelow_spec buf B
  rw [terminatorScan] at h
  simp only [h, ne_eq, getD_eq_terminator_iff] at hspec
  obtain ⟨hk, hat, hlater⟩ := hspec
  refine ⟨hk, hat, fun j hj hterm => ?_⟩
  have hjB : j < B := hbuf ▸ (List.getElem?_eq_some_iff.mp hterm).1
  exact hlater j hj hjB hterm

theorem terminatorScan_none {B : Nat} {buf : List Byte} (hbuf : buf.length = B) (h : terminatorScan B buf = none)
    (j : Nat) : buf[j]? ≠ some 0xFF := by
  have hspec := scanBelow_spec buf B
  rw [terminatorScan] at h
  simp only [h, ne_eq, getD_eq_terminator_iff] at hspec
  intro hterm
  have hjB : j < B := hbuf ▸ (List.getElem?_eq_some_iff.mp hterm).1
  exact hspec j hjB hterm

/-- A block has at most one last terminator, so the scan answers it wherever it stands. -/
theorem terminatorScan_eq_some {B : Nat} {buf : List Byte} (hbuf : buf.length = B) {k : Nat}
    (hat : buf[k]? = some 0xFF) (hlater : ∀ j, k < j → buf[j]? ≠ some 0xFF) : terminatorScan B buf = some k := by
  cases hscan : terminatorScan B buf with
  | none => exact absurd hat (terminatorScan_none hbuf hscan k)
  | some i =>
    obtain ⟨-, hati, hlateri⟩ := terminatorScan_some hbuf hscan
    rcases Nat.lt_trichotomy i k with hlt | rfl | hgt
    · exact absurd hat (hlateri k hlt)
    · rfl
    · exact absurd hati (hlater i hgt)

theorem terminatorScan_eq_none {B : Nat} {buf : List Byte} (hbuf : buf.length = B) (h : ∀ b ∈ buf, b ≠ 0xFF) :
    terminatorScan B buf = none := by
  cases hscan : terminatorScan B buf with
  | none => rfl
  | some i =>
    obtain ⟨-, hati, -⟩ := terminatorScan_some hbuf hscan
    exact absurd rfl (h _ (List.mem_of_getElem? hati))

/-- Settles O34: the scan answers a last terminator, which is unique, or there is none. -/
theorem scanFindsTheLastTerminator : Obligations.ScanFindsTheLastTerminator := by
  unfold Obligations.ScanFindsTheLastTerminator
  intro B buf hbuf
  refine ⟨fun k => ⟨terminatorScan_some hbuf, fun ⟨_, hat, hlater⟩ => terminatorScan_eq_some hbuf hat hlater⟩,
    fun h b hb => ?_, terminatorScan_eq_none hbuf⟩
  rintro rfl
  obtain ⟨j, hj⟩ := List.mem_iff_getElem?.mp hb
  exact terminatorScan_none hbuf h j hj

/-- The scan finds the terminator of a terminator-bearing chunk, whatever bytes stand before it: after it are only
zeros (R103). -/
theorem terminatorScan_lastChunk {B : Nat} {t : List Byte} (h : t.length < B) :
    terminatorScan B (lastChunk B t) = some t.length := by
  refine terminatorScan_eq_some (lastChunk_length h) (by simp [lastChunk, terminator]) fun j hj hterm => ?_
  rw [lastChunk, List.getElem?_append_right (by simpa using hj), List.getElem?_replicate] at hterm
  split at hterm <;> simp at hterm

/-! ### The memory a byte command leaves -/

theorem take_readBytes (m : Memory) (a : Nat) {n k : Nat} (h : k ≤ n) : (readBytes m a n).take k = readBytes m a k := by
  rw [← Nat.add_sub_of_le h, readBytes_append, List.take_left' (readBytes_length _ _ _)]

theorem drop_readBytes (m : Memory) (a : Nat) {n k : Nat} (h : k ≤ n) :
    (readBytes m a n).drop k = readBytes m (a + k) (n - k) := by
  conv_lhs => rw [← Nat.add_sub_of_le h]
  rw [readBytes_append, List.drop_left' (readBytes_length _ _ _)]

/-- The block loop leaves the rest of the source, which the last block is made of, as it was. -/
theorem readBytes_source_transformBlocks {f : List Byte → List Byte} {B : Nat} (hf : ∀ b, (f b).length = B)
    {count sa sn da dn k : Nat} (m : Memory) (hapart : ¬Overlap sa sn da dn) (hcount : count * B ≤ dn) (hk : k ≤ sn) :
    readBytes (transformBlocks f B count sa da m) (sa + k) (sn - k) = (readBytes m sa sn).drop k := by
  rw [drop_readBytes m sa hk]
  exact readBytes_congr fun x hlo hhi => read_transformBlocks_outside hf count _ _ _ (by omega)

/-- Whole blocks transformed into the destination and then a last string written behind them (R104, R110). -/
theorem readBytes_transformBlocks_writeBytes {f : List Byte → List Byte} {B : Nat} (hB : 0 < B)
    (hf : ∀ b, (f b).length = B) {count sa sn da dn : Nat} {m : Memory} (hm : m.sorted)
    (hapart : ¬Overlap sa sn da dn) (hsrc : count * B ≤ sn) (hdst : count * B ≤ dn) (t : List Byte) :
    readBytes (writeBytes (transformBlocks f B count sa da m) (da + count * B) t) da (count * B + t.length)
      = mapChunks f B ((readBytes m sa sn).take (count * B)) ++ t := by
  rw [readBytes_append, readBytes_writeBytes (transformBlocks_sorted count _ _ hm), take_readBytes m sa hsrc,
    ← readBytes_transformBlocks hB hf count sa da hm (by omega)]
  congr 1
  exact readBytes_congr fun x _ hhi => read_writeBytes_outside _ (.inl hhi)

/-! ### ENC -/

theorem sourceBytes_length (s : State) : (sourceBytes s).length = s.srcLen.toNat := readBytes_length _ _ _

theorem exec_enc_of_ready {s : State} (h : EncReady s) :
    exec .enc s = .next (finishBytes (encMemory s) (encLength s) s) := by
  obtain ⟨hkey, hsrc, hdst, hroom, hapart, hdevice⟩ := h
  have hcheck : encCheck s = none := (encCheck_eq_none_iff s).mpr ⟨hkey, ⟨hsrc, hdst⟩, hroom, hapart⟩
  simp [exec, execEnc, hcheck, hdevice]

theorem encMemory_sorted {s : State} (hm : s.mem.sorted) : (encMemory s).sorted :=
  writeBytes_sorted (transformBlocks_sorted _ _ _ hm) _ _

/-- The terminator-bearing chunk is made of the message as it was before the blocks in front of it were written. -/
theorem encMemory_eq {s : State} (h : EncReady s) :
    encMemory s = writeBytes
      (transformBlocks (encryptBytes s.cipher) s.nw.bytes (s.srcLen.toNat / s.nw.bytes) s.srcAddr.toNat s.dstAddr.toNat
        s.mem)
      (s.dstAddr.toNat + s.srcLen.toNat / s.nw.bytes * s.nw.bytes)
      (encryptBytes s.cipher (lastChunk s.nw.bytes (remainder s.nw.bytes (sourceBytes s)))) := by
  obtain ⟨-, -, -, hroom, hapart, -⟩ := h
  rw [Nat.add_one_mul] at hroom
  rw [encMemory, readBytes_source_transformBlocks (encryptBytes_length s.cipher) s.mem hapart (by omega)
    (Nat.div_mul_le_self _ _), remainder, sourceBytes_length, sourceBytes]

/-- ENC leaves the encrypted chunks of the padded message in its destination (R100 to R104). -/
theorem readBytes_encMemory {s : State} (hnw : s.nw ≠ .unset) (hm : s.mem.sorted) (h : EncReady s) :
    readBytes (encMemory s) s.dstAddr.toNat (encLength s)
      = mapChunks (encryptBytes s.cipher) s.nw.bytes (pad s.nw.bytes (sourceBytes s)) := by
  have hB := bytes_pos hnw
  rw [encMemory_eq h, mapChunks_pad _ hB, sourceBytes_length, encLength, Nat.add_one_mul]
  obtain ⟨-, -, -, hroom, hapart, -⟩ := h
  rw [Nat.add_one_mul] at hroom
  have hwritten := readBytes_transformBlocks_writeBytes hB (encryptBytes_length s.cipher) hm hapart
    (Nat.div_mul_le_self _ _) (by omega)
    (encryptBytes s.cipher (lastChunk s.nw.bytes (remainder s.nw.bytes (sourceBytes s))))
  rwa [encryptBytes_length] at hwritten

/-! ### DEC -/

/-- Of a ciphertext of whole blocks all but the last are read before the scan. -/
theorem decFull_add_bytes {s : State} (h : DecReady s) : decFull s + s.nw.bytes = s.srcLen.toNat := by
  obtain ⟨-, hpos, hwhole, -⟩ := h
  have hdvd := Nat.dvd_of_mod_eq_zero hwhole
  rw [decFull, Nat.sub_one_mul, Nat.div_mul_cancel hdvd]
  exact Nat.sub_add_cancel (Nat.le_of_dvd hpos hdvd)

theorem decFull_le_dstCap {s : State} (hnw : s.nw ≠ .unset) (h : DecReady s) : decFull s ≤ s.dstCap.toNat := by
  have hB := bytes_pos hnw
  have hfull := decFull_add_bytes h
  obtain ⟨-, -, -, -, -, hroom, -⟩ := h
  omega

/-- The last block is scanned as the source holds it: the blocks written before it do not reach it. -/
theorem decLast_eq {s : State} (hnw : s.nw ≠ .unset) (h : DecReady s) :
    decLast s = decryptBytes s.cipher ((sourceBytes s).drop (decFull s)) := by
  have hfull := decFull_add_bytes h
  have hdst := decFull_le_dstCap hnw h
  obtain ⟨-, -, -, -, -, -, hapart, -⟩ := h
  have hrest := readBytes_source_transformBlocks (decryptBytes_length s.cipher) s.mem hapart hdst
    (Nat.le.intro hfull)
  rw [show s.srcLen.toNat - decFull s = s.nw.bytes by omega] at hrest
  rw [decLast, decFullMemory, hrest, sourceBytes]

theorem take_sourceBytes_length {s : State} (h : DecReady s) :
    ((sourceBytes s).take (decFull s)).length = (s.srcLen.toNat / s.nw.bytes - 1) * s.nw.bytes :=
  List.length_take_of_le (by rw [sourceBytes_length]; exact Nat.le.intro (decFull_add_bytes h))

/-- The plaintext of the blocks DEC writes whole. -/
def decWhole (s : State) : List Byte :=
  mapChunks (decryptBytes s.cipher) s.nw.bytes ((sourceBytes s).take (decFull s))

theorem decWhole_length {s : State} (hnw : s.nw ≠ .unset) (h : DecReady s) : (decWhole s).length = decFull s :=
  mapChunks_length (bytes_pos hnw) (decryptBytes_length s.cipher) _ _ (take_sourceBytes_length h)

/-- The plaintext of DEC is that of the blocks it writes whole and that of the block it scans. -/
theorem decryptedBytes_eq {s : State} (hnw : s.nw ≠ .unset) (h : DecReady s) :
    decryptedBytes s = decWhole s ++ decLast s := by
  have hB := bytes_pos hnw
  have hlast : ((sourceBytes s).drop (decFull s)).length = s.nw.bytes := by
    rw [List.length_drop, sourceBytes_length, ← decFull_add_bytes h, Nat.add_sub_cancel_left]
  rw [decLast_eq hnw h, ← mapChunks_one (decryptBytes s.cipher) hB hlast, decWhole,
    ← mapChunks_append _ hB _ _ _ (take_sourceBytes_length h), List.take_append_drop, decryptedBytes]

theorem decLast_eq_drop_decryptedBytes {s : State} (hnw : s.nw ≠ .unset) (h : DecReady s) :
    decLast s = (decryptedBytes s).drop (decFull s) := by
  rw [decryptedBytes_eq hnw h, List.drop_left' (decWhole_length hnw h)]

/-- Host memory after a DEC whose scan answers ndx. -/
def decMemory (s : State) (ndx : Nat) : Memory :=
  writeBytes (decFullMemory s) (s.dstAddr.toNat + decFull s) ((decLast s).take ndx)

theorem exec_dec_of_scan {s : State} {ndx : Nat} (h : DecReady s)
    (hscan : terminatorScan s.nw.bytes (decLast s) = some ndx) :
    exec .dec s = .next (finishBytes (decMemory s ndx) (decFull s + ndx) s) := by
  obtain ⟨hkey, hpos, hwhole, hsrc, hdst, hroom, hapart, hdevice⟩ := h
  have hcheck : decCheck s = none :=
    (decCheck_eq_none_iff s).mpr ⟨hkey, hpos, hwhole, ⟨hsrc, hdst⟩, hroom, hapart⟩
  simp [exec, execDec, hcheck, hdevice, hscan, decMemory]

/-- DEC leaves the plaintext before the terminator in its destination (R108, R110). -/
theorem readBytes_decMemory {s : State} (hnw : s.nw ≠ .unset) (hm : s.mem.sorted) (h : DecReady s) {ndx : Nat}
    (hndx : ndx ≤ s.nw.bytes) :
    readBytes (decMemory s ndx) s.dstAddr.toNat (decFull s + ndx) = (decryptedBytes s).take (decFull s + ndx) := by
  have hsrc := Nat.le.intro (decFull_add_bytes h)
  have hdst := decFull_le_dstCap hnw h
  have hwhole := decWhole_length hnw h
  have hlast : ((decLast s).take ndx).length = ndx :=
    List.length_take_of_le (by rwa [decLast, decryptBytes_length])
  have htake : (decryptedBytes s).take (decFull s + ndx) = decWhole s ++ (decLast s).take ndx := by
    rw [decryptedBytes_eq hnw h, ← hwhole, List.take_length_add_append]
  obtain ⟨-, -, -, -, -, -, hapart, -⟩ := h
  have hwritten := readBytes_transformBlocks_writeBytes (bytes_pos hnw) (decryptBytes_length s.cipher) hm hapart hsrc
    hdst ((decLast s).take ndx)
  rw [hlast] at hwritten
  exact hwritten.trans htake.symm

/-! ### DEC of the output of ENC -/

theorem decryptBytes_encryptBytes {w : BlockWidth} {c : CipherContext w} (h : ConfigLegal c.cfg) {b : List Byte}
    (hb : b.length = w.bytes) : decryptBytes c (encryptBytes c b) = b := by
  rw [decryptBytes, encryptBytes, loadWords_storeWords, blockDecrypt_blockEncrypt h, storeWords_loadWords _ hb]

/-- The state ENC leaves, its output made the source and `[da, da + dc)` the destination. -/
def afterEnc (s : State) (da dc : Word) : State :=
  { finishBytes (encMemory s) (encLength s) s with
    srcAddr := s.dstAddr, srcLen := BitVec.ofNat 64 (encLength s), dstAddr := da, dstCap := dc }

theorem afterEnc_srcLen {s : State} (h : EncReady s) (da dc : Word) :
    (afterEnc s da dc).srcLen.toNat = encLength s := by
  obtain ⟨-, -, -, hroom, -⟩ := h
  rw [afterEnc, BitVec.toNat_ofNat]
  exact Nat.mod_eq_of_lt (Nat.lt_of_le_of_lt hroom s.dstCap.isLt)

theorem afterEnc_decFull {s : State} (hnw : s.nw ≠ .unset) (h : EncReady s) (da dc : Word) :
    decFull (afterEnc s da dc) = s.srcLen.toNat / s.nw.bytes * s.nw.bytes := by
  have hnwt : (afterEnc s da dc).nw = s.nw := rfl
  rw [decFull, afterEnc_srcLen h, hnwt, encLength, Nat.mul_div_cancel _ (bytes_pos hnw), Nat.add_sub_cancel]

/-- Every block of the padded message is decrypted as it was encrypted. -/
theorem afterEnc_decryptedBytes {s : State} (hcfg : ConfigLegal s.cfg) (hnw : s.nw ≠ .unset) (hm : s.mem.sorted)
    (h : EncReady s) (da dc : Word) :
    decryptedBytes (afterEnc s da dc) = pad s.nw.bytes (sourceBytes s) := by
  have hB := bytes_pos hnw
  have hsource : sourceBytes (afterEnc s da dc)
      = mapChunks (encryptBytes s.cipher) s.nw.bytes (pad s.nw.bytes (sourceBytes s)) := by
    rw [sourceBytes, afterEnc_srcLen h]
    exact readBytes_encMemory hnw hm h
  rw [decryptedBytes, hsource]
  exact mapChunks_inverse hB (encryptBytes_length s.cipher) (fun b hb => decryptBytes_encryptBytes hcfg hb) _ _
    (pad_length hB _)

/-- The last block DEC scans is the terminator-bearing chunk, whose terminator follows the rest of the message. -/
theorem afterEnc_scan {s : State} (hcfg : ConfigLegal s.cfg) (hnw : s.nw ≠ .unset) (hm : s.mem.sorted)
    (h : EncReady s) {da dc : Word} (hdec : DecReady (afterEnc s da dc)) :
    terminatorScan s.nw.bytes (decLast (afterEnc s da dc)) = some (s.srcLen.toNat % s.nw.bytes) := by
  have hlast : decLast (afterEnc s da dc) = lastChunk s.nw.bytes (remainder s.nw.bytes (sourceBytes s)) := by
    rw [decLast_eq_drop_decryptedBytes (s := afterEnc s da dc) hnw hdec, afterEnc_decryptedBytes hcfg hnw hm h,
      afterEnc_decFull hnw h, ← sourceBytes_length s, drop_pad]
  rw [hlast, terminatorScan_lastChunk (remainder_length_lt (bytes_pos hnw) _), remainder_length, sourceBytes_length]

/-- DEC of the output of ENC writes the padded message up to its terminator, which is the message. -/
theorem exec_dec_afterEnc {s : State} (hcfg : ConfigLegal s.cfg) (hnw : s.nw ≠ .unset) (hm : s.mem.sorted)
    (h : EncReady s) {da dc : Word} (hdec : DecReady (afterEnc s da dc)) :
    ∃ u, exec .dec (afterEnc s da dc) = .next u ∧ u.err = 0 ∧ u.dstLen = s.srcLen ∧
      readBytes u.mem da.toNat s.srcLen.toNat = sourceBytes s := by
  have hr := Nat.mod_lt s.srcLen.toNat (bytes_pos hnw)
  have hlen : decFull (afterEnc s da dc) + s.srcLen.toNat % s.nw.bytes = s.srcLen.toNat := by
    rw [afterEnc_decFull hnw h, Nat.div_add_mod']
  have hread := readBytes_decMemory (s := afterEnc s da dc) hnw (encMemory_sorted hm) hdec hr.le
  rw [hlen, afterEnc_decryptedBytes hcfg hnw hm h] at hread
  have hexec := exec_dec_of_scan hdec (afterEnc_scan hcfg hnw hm h hdec)
  rw [hlen] at hexec
  refine ⟨_, hexec, rfl, BitVec.ofNat_toNat .., hread.trans ?_⟩
  rw [← sourceBytes_length s, take_pad]

/-- Settles O43: the state DEC starts from is the one ENC leaves, which the checks make the only outcome of ENC. -/
theorem decAfterEncRestoresTheMessage : Obligations.DecAfterEncRestoresTheMessage := by
  unfold Obligations.DecAfterEncRestoresTheMessage
  intro s t da dc hcfg hnw hm henc hexec hdec
  rw [exec_enc_of_ready henc] at hexec
  cases hexec
  exact exec_dec_afterEnc hcfg hnw hm.1 henc hdec

end Sys2Proof.Machine
end

section
/-! A successful CONFIG or CONFIGR leaves no valid key, and without one no block or byte command runs; a failed one keeps
the key and its rings (R142). -/

namespace Sys2Proof.Machine

/-- What CONFIG and CONFIGR can do: raise an error with a code other than 0, or put a configuration in place. -/
theorem exec_configure_cases {i : Instr} (hi : isConfigure i = true) (s : State) :
    (∃ e, errorBits e ≠ 0 ∧ exec i s = .next (raiseError false e s)) ∨
    ∃ n r, exec i s = .next (applyConfig n r s) := by
  cases i with
  | config bits =>
    rcases execConfig_cases bits s with ⟨-, hexec⟩ | ⟨n, -, hexec⟩
    · exact .inl ⟨.invalidBlockSize, by decide, hexec⟩
    · exact .inr ⟨n, _, hexec⟩
  | configr bits rounds =>
    rcases execConfigr_cases bits rounds s with ⟨-, hexec⟩ | ⟨-, -, -, hexec⟩ | ⟨n, -, -, hexec⟩
    · exact .inl ⟨.invalidBlockSize, by decide, hexec⟩
    · exact .inl ⟨.invalidRoundCount, by decide, hexec⟩
    · exact .inr ⟨n, _, hexec⟩
  | init | encb | decb | enc | dec => simp [isConfigure] at hi

/-- RequireKeyed (R121) for ENCB and DECB. -/
theorem exec_blockCommand_of_noKey {j : Instr} (hj : isBlockCommand j = true) {s : State} (hkey : s.keyValid = false) :
    exec j s = .next { s with err := 7 } := by
  cases j with
  | encb => exact (blockCommand_spec blockEncrypt s).1 hkey
  | decb => exact (blockCommand_spec blockDecrypt s).1 hkey
  | config | configr | init | enc | dec => simp [isBlockCommand] at hj

/-- RequireKeyed (R121) for ENC and DEC: it is the first of their checks (R124). -/
theorem exec_bytesCommand_of_noKey {j : Instr} (hj : isBytesCommand j = true) {s : State} (hkey : s.keyValid = false) :
    exec j s = .next { s with err := 7, dstLen := 0 } := by
  cases j with
  | enc =>
    have hcheck : encCheck s = some .notInitialized := if_pos hkey
    simp [exec, execEnc, hcheck, raiseError, errorBits]
  | dec =>
    have hcheck : decCheck s = some .notInitialized := if_pos hkey
    simp [exec, execDec, hcheck, raiseError, errorBits]
  | config | configr | init | encb | decb => simp [isBytesCommand] at hj

/-- Settles O21: a failed configuration leaves a code and the key as it was, a successful one no valid key, without which
every block and byte command fails. -/
theorem reconfigurationDropsTheKey : Obligations.ReconfigurationDropsTheKey := by
  unfold Obligations.ReconfigurationDropsTheKey
  intro i j s t hi hexec
  rcases exec_configure_cases hi s with ⟨e, he, hfail⟩ | ⟨n, r, hdone⟩
  · cases hfail.symm.trans hexec
    exact ⟨fun herr => absurd herr he, fun _ => ⟨rfl, rfl, rfl⟩⟩
  · cases hdone.symm.trans hexec
    have hkey : (applyConfig n r s).keyValid = false := rfl
    exact ⟨fun _ => ⟨hkey, (exec_blockCommand_of_noKey · hkey), (exec_bytesCommand_of_noKey · hkey)⟩,
      fun herr => absurd rfl herr⟩

end Sys2Proof.Machine
end

section
/-! The command word and its step: the decoder is a two-sided inverse of the encoder, and a word written to REG[CMD]
runs as the one command it decodes to (R10, R50 to R54, R123, R133, R134). -/

namespace Sys2Proof.Machine

/-! ### Decoder and encoder -/

/-- Settles O1, command by command from the fields the encoder sets. -/
theorem decodeOfEncodeIsIdentity : Obligations.DecodeOfEncodeIsIdentity := by
  unfold Obligations.DecodeOfEncodeIsIdentity
  exact fun _ h => decode_encode h

/-- The operands a command is decoded with are a word's fields, and a field is in its range. -/
theorem wellFormed_of_decode {v : Word} {i : Instr} (h : decode v = .instr i) : i.WellFormed := by
  obtain ⟨-, hd⟩ | ⟨-, hd⟩ | ⟨-, hd⟩ | ⟨-, hd⟩ | ⟨-, hd⟩ | ⟨-, hd⟩ | ⟨-, hd⟩ | ⟨why, hd⟩ := decode_cases v <;>
    cases h.symm.trans hd
  · exact wellFormed_config.mpr (fieldA16 v).isLt
  · exact wellFormed_configr.mpr ⟨(fieldA16 v).isLt, (fieldA32 v).le_toInt, (fieldA32 v).toInt_lt⟩
  · exact wellFormed_init.mpr (fieldA16 v).isLt
  all_goals rfl

/-- Settles O2: the decoded operands are the word's own fields, from which the encoder makes the word again. -/
theorem encodeOfDecodeIsIdentity : Obligations.EncodeOfDecodeIsIdentity := by
  unfold Obligations.EncodeOfDecodeIsIdentity
  exact fun _ _ h => ⟨wellFormed_of_decode h, encode_of_decode h⟩

/-- Settles O4: the decoder evaluated on thirteen literal words. -/
theorem specWordsDecode : Obligations.SpecWordsDecode := by
  unfold Obligations.SpecWordsDecode
  decide

/-! ### A word written to REG[CMD] -/

theorem runCommand_of_instr {v : Word} {i : Instr} (h : decode v = .instr i) (s : State) :
    runCommand v s = exec i s := by
  simp only [runCommand, h]

theorem runCommand_of_illegal {v : Word} {why : IllegalWord} (h : decode v = .illegal why) (s : State) :
    runCommand v s = .next (raiseError false .illegalCommand s) := by
  simp only [runCommand, h, execIllegal]

/-- Settles O5: the illegal word's own arm of the step raises code 5 and leaves DST_LEN alone. -/
theorem illegalWordChangesOnlyErr : Obligations.IllegalWordChangesOnlyErr := by
  unfold Obligations.IllegalWordChangesOnlyErr
  intro v why s rest h
  rw [step_command, runCommand_of_illegal h]
  rfl

/-- Settles O6: the queued word is taken off the queue and run. -/
theorem stepRunsDecodedCommand : Obligations.StepRunsDecodedCommand := by
  unfold Obligations.StepRunsDecodedCommand
  intro v i s rest h
  rw [step_command, runCommand_of_instr h]

/-- A whole 64-bit word is placed as it is. -/
theorem withFetchWord_toNat (s : State) (v : Word) :
    s.withFetchWord 64 v.toNat = { s with hostOps := commandWrite s.cfg v :: s.hostOps } := by
  rw [State.withFetchWord, Nat.mod_eq_of_lt v.isLt, BitVec.ofNat_toNat, BitVec.setWidth_eq]

/-- Settles O7: the placed word stands at the front of the queue. -/
theorem fetchWordIsTheNextCommand : Obligations.FetchWordIsTheNextCommand := by
  unfold Obligations.FetchWordIsTheNextCommand
  intro v i s h
  rw [withFetchWord_toNat, step_command, runCommand_of_instr h]

/-- Settles O8: an empty queue is a branch of its own in the step. -/
theorem noAccessHoldsState : Obligations.NoAccessHoldsState := by
  unfold Obligations.NoAccessHoldsState
  exact fun _ h => step_nil h

end Sys2Proof.Machine
end

section
/-! The checks of ENC and DEC: their order, what the region checks mean as addresses, and the refusal of device buffers
(R41, R42, R45, R104, R105, R110, R124). -/

namespace Sys2Proof.Machine

/-! ### Errors in their order -/

theorem exec_enc_of_check {s : State} {e : ErrorCode} (h : encCheck s = some e) :
    exec .enc s = .next { s with err := errorBits e, dstLen := 0 } := by
  simp [exec, execEnc, h, raiseError]

theorem exec_dec_of_check {s : State} {e : ErrorCode} (h : decCheck s = some e) :
    exec .dec s = .next { s with err := errorBits e, dstLen := 0 } := by
  simp [exec, execDec, h, raiseError]

/-- Settles O36: each clause is one branch of the checks, the branches before it passed. -/
theorem encErrorsInOrder : Obligations.EncErrorsInOrder := by
  unfold Obligations.EncErrorsInOrder
  intro s sn dc fits room
  refine ⟨fun hkey => exec_enc_of_check (e := .notInitialized) (if_pos hkey), fun hkey hfits => ?_,
    fun hkey hfits hroom => ?_, fun hkey hfits hroom hover => ?_⟩ <;>
    have hkey : ¬s.keyValid = false := by simp [hkey]
  · exact exec_enc_of_check (e := .addressRange) (by rw [encCheck, if_neg hkey, if_pos hfits])
  · have hsmall : encLength s > s.dstCap.toNat := not_le.mp hroom
    exact exec_enc_of_check (e := .destinationTooSmall)
      (by rw [encCheck, if_neg hkey, if_neg (not_not.mpr hfits), if_pos hsmall])
  · have hsmall : ¬encLength s > s.dstCap.toNat := not_lt.mpr hroom
    exact exec_enc_of_check (e := .bufferOverlap)
      (by rw [encCheck, if_neg hkey, if_neg (not_not.mpr hfits), if_neg hsmall, if_pos hover])

/-- Settles O37: each clause is one branch of the checks, the branches before it passed. -/
theorem decErrorsInOrder : Obligations.DecErrorsInOrder := by
  unfold Obligations.DecErrorsInOrder
  intro s sn dc whole fits room
  have hwhole_iff : ¬(s.srcLen.toNat = 0 ∨ s.srcLen.toNat % s.nw.bytes ≠ 0) ↔ whole :=
    not_or.trans (and_congr Nat.pos_iff_ne_zero.symm not_not)
  refine ⟨fun hkey => exec_dec_of_check (e := .notInitialized) (if_pos hkey), fun hkey hwhole => ?_,
    fun hkey hwhole hfits => ?_, fun hkey hwhole hfits hroom => ?_, fun hkey hwhole hfits hroom hover => ?_⟩ <;>
    have hkey : ¬s.keyValid = false := by simp [hkey]
  · rw [← hwhole_iff, not_not] at hwhole
    exact exec_dec_of_check (e := .invalidCiphertextLength) (by rw [decCheck, if_neg hkey, if_pos hwhole])
  all_goals rw [← hwhole_iff] at hwhole
  · exact exec_dec_of_check (e := .addressRange) (by rw [decCheck, if_neg hkey, if_neg hwhole, if_pos hfits])
  · exact exec_dec_of_check (e := .destinationTooSmall)
      (by rw [decCheck, if_neg hkey, if_neg hwhole, if_neg (not_not.mpr hfits), if_pos (not_le.mp hroom)])
  · exact exec_dec_of_check (e := .bufferOverlap) (by
      rw [decCheck, if_neg hkey, if_neg hwhole, if_neg (not_not.mpr hfits), if_neg (not_lt.mpr hroom), if_pos hover])

/-! ### Regions as sets of addresses -/

/-- Two regions that overlap share the later of their two first addresses. -/
theorem overlap_iff_shared_address (sa sn da dn : Nat) :
    Overlap sa sn da dn ↔ ∃ x, (sa ≤ x ∧ x < sa + sn) ∧ (da ≤ x ∧ x < da + dn) := by
  constructor
  · rintro ⟨hsn, hdn, hsd, hds⟩
    exact ⟨max sa da, by omega, by omega⟩
  · rintro ⟨x, hs, hd⟩
    exact ⟨by omega, by omega, by omega, by omega⟩

/-- Settles O35, for empty regions too: they hold no address. -/
theorem overlapMeansSharedAddress : Obligations.OverlapMeansSharedAddress := by
  unfold Obligations.OverlapMeansSharedAddress
  exact overlap_iff_shared_address

/-- The address x lies in the register block or in a device region of the platform (R11, R45; log 6). -/
def DeviceAddress (c : CoreConfig) (x : Nat) : Prop :=
  (c.coreBase.toNat ≤ x ∧ x < c.coreBase.toNat + 4096) ∨
    ∃ d ∈ c.devices, d.base.toNat ≤ x ∧ x < d.base.toNat + d.size

theorem touchesDevice_iff (c : CoreConfig) (a n : Nat) :
    touchesDevice c a n = true ↔ ∃ x, (a ≤ x ∧ x < a + n) ∧ DeviceAddress c x := by
  simp only [touchesDevice, List.any_cons, List.any_eq_true, Bool.or_eq_true, decide_eq_true_eq,
    overlap_iff_shared_address, registerBlock, DeviceAddress]
  constructor
  · rintro (⟨x, hx, hblock⟩ | ⟨d, hd, x, hx, hdev⟩)
    · exact ⟨x, hx, .inl hblock⟩
    · exact ⟨x, hx, .inr ⟨d, hd, hdev⟩⟩
  · rintro ⟨x, hx, hblock | ⟨d, hd, hdev⟩⟩
    · exact .inl ⟨x, hx, hblock⟩
    · exact .inr ⟨d, hd, x, hx, hdev⟩

theorem regionsTouchDevice_iff (s : State) :
    regionsTouchDevice s = true ↔
      ∃ x, ((s.srcAddr.toNat ≤ x ∧ x < s.srcAddr.toNat + s.srcLen.toNat) ∨
          (s.dstAddr.toNat ≤ x ∧ x < s.dstAddr.toNat + s.dstCap.toNat)) ∧ DeviceAddress s.cfg x := by
  simp only [regionsTouchDevice, Bool.or_eq_true, touchesDevice_iff, or_and_right, exists_or]

/-- Settles O52: the check over one region, and over the two of ENC and DEC. -/
theorem touchingADeviceMeansADeviceAddress : Obligations.TouchingADeviceMeansADeviceAddress := by
  unfold Obligations.TouchingADeviceMeansADeviceAddress
  exact ⟨touchesDevice_iff, regionsTouchDevice_iff⟩

/-! ### Readiness and device buffers -/

/-- ENC is ready when its checks pass on ordinary memory. -/
theorem encReady_iff (s : State) : EncReady s ↔ encCheck s = none ∧ regionsTouchDevice s = false := by
  rw [encCheck_eq_none_iff]
  constructor
  · rintro ⟨hkey, hsrc, hdst, hroom, hapart, hdevice⟩
    exact ⟨⟨hkey, ⟨hsrc, hdst⟩, hroom, hapart⟩, hdevice⟩
  · rintro ⟨⟨hkey, ⟨hsrc, hdst⟩, hroom, hapart⟩, hdevice⟩
    exact ⟨hkey, hsrc, hdst, hroom, hapart, hdevice⟩

/-- DEC is ready when its checks pass on ordinary memory. -/
theorem decReady_iff (s : State) : DecReady s ↔ decCheck s = none ∧ regionsTouchDevice s = false := by
  rw [decCheck_eq_none_iff]
  constructor
  · rintro ⟨hkey, hpos, hwhole, hsrc, hdst, hroom, hapart, hdevice⟩
    exact ⟨⟨hkey, hpos, hwhole, ⟨hsrc, hdst⟩, hroom, hapart⟩, hdevice⟩
  · rintro ⟨⟨hkey, hpos, hwhole, ⟨hsrc, hdst⟩, hroom, hapart⟩, hdevice⟩
    exact ⟨hkey, hpos, hwhole, hsrc, hdst, hroom, hapart, hdevice⟩

theorem exec_enc_of_device {s : State} (hcheck : encCheck s = none) (hdevice : regionsTouchDevice s = true) :
    exec .enc s = .refused .bufferInDevice := by
  simp [exec, execEnc, hcheck, hdevice]

theorem exec_dec_of_device {s : State} (hcheck : decCheck s = none) (hdevice : regionsTouchDevice s = true) :
    exec .dec s = .refused .bufferInDevice := by
  simp [exec, execDec, hcheck, hdevice]

/-- Settles O38: the address makes the device check fail, and the checks before it pass. -/
theorem deviceBuffersAreRefused : Obligations.DeviceBuffersAreRefused := by
  unfold Obligations.DeviceBuffersAreRefused
  intro s x sa sn da dc hregion haddr hkey hsrc hdst hapart
  have hdevice : regionsTouchDevice s = true := (regionsTouchDevice_iff s).mpr ⟨x, hregion, haddr⟩
  have hover : ¬regionsOverlap s := fun h =>
    (overlap_iff_shared_address sa sn da dc).mp h |>.elim hapart
  constructor
  · intro hroom
    exact exec_enc_of_device ((encCheck_eq_none_iff s).mpr ⟨hkey, ⟨hsrc, hdst⟩, hroom, hover⟩) hdevice
  · intro hpos hwhole hroom
    exact exec_dec_of_device
      ((decCheck_eq_none_iff s).mpr ⟨hkey, hpos, hwhole, ⟨hsrc, hdst⟩, hroom, hover⟩) hdevice

end Sys2Proof.Machine
end

section
/-! The state after a block or byte command, whole: the block round trip on the machine, the memory frame of ENC and
DEC, and the bytes the two depend on (R36, R82, R91, R104, R110, R111). -/

namespace Sys2Proof.Machine

/-! ### ENCB, then DECB -/

theorem blockCommand_of_key (f : {w : BlockWidth} → CipherContext w → Block w → Block w) {s : State}
    (h : s.keyValid = true) :
    blockCommand f s = .next (putBlock (withBlock (f s.cipher (firstWords s.nw s.blkIn)) s.blkOut) s) :=
  if_neg (by simp [h])

/-- BLK_OUT as ENCB leaves it. -/
def encryptedOut (s : State) : Vector Word 16 :=
  withBlock (blockEncrypt s.cipher (firstWords s.nw s.blkIn)) s.blkOut

theorem blockDecrypt_encryptedOut {s : State} (h : ConfigLegal s.cfg) :
    blockDecrypt s.cipher (firstWords s.nw (encryptedOut s)) = firstWords s.nw s.blkIn := by
  rw [encryptedOut, firstWords_withBlock]
  exact blockDecrypt_blockEncrypt h _

/-- DECB where the host has put a block into BLK_IN: the context is that of the state before. -/
theorem exec_decb_of_key {s : State} (h : s.keyValid = true) (inp out : Vector Word 16) :
    exec .decb { putBlock out s with blkIn := inp } = .next
      (putBlock (withBlock (blockDecrypt s.cipher (firstWords s.nw inp)) out) { putBlock out s with blkIn := inp }) :=
  blockCommand_of_key blockDecrypt (s := { putBlock out s with blkIn := inp }) h

/-- Settles O31: DECB runs in the context ENCB ran in, on the block ENCB wrote. -/
theorem decbAfterEncbRestoresTheBlock : Obligations.DecbAfterEncbRestoresTheBlock := by
  unfold Obligations.DecbAfterEncbRestoresTheBlock
  intro s hcfg hkey
  have hencb : exec .encb s = .next (putBlock (encryptedOut s) s) := blockCommand_of_key blockEncrypt hkey
  refine ⟨_, _, hencb, exec_decb_of_key hkey _ _, rfl, fun i h16 hi => ?_⟩
  rw [putBlock_blkOut, withBlock_getElem_low _ _ hi h16]
  simp only [putBlock_blkOut, blockDecrypt_encryptedOut hcfg]
  exact firstWords_getElem _ _ hi

/-! ### The memory frame of ENC and DEC -/

/-- Whole blocks and then a last string, written side by side, leave every other byte alone. -/
theorem read_transformBlocks_writeBytes_outside {f : List Byte → List Byte} {B : Nat} (hf : ∀ b, (f b).length = B)
    (count src dst : Nat) (m : Memory) (t : List Byte) {x : Nat} (h : Outside x dst (count * B + t.length)) :
    (writeBytes (transformBlocks f B count src dst m) (dst + count * B) t).read x = m.read x := by
  rw [read_writeBytes_outside _ (by omega), read_transformBlocks_outside hf count _ _ _ (by omega)]

theorem read_encMemory_outside (s : State) {x : Nat} (h : Outside x s.dstAddr.toNat (encLength s)) :
    (encMemory s).read x = s.mem.read x := by
  rw [encLength, Nat.add_one_mul] at h
  exact read_transformBlocks_writeBytes_outside (encryptBytes_length s.cipher) _ _ _ _ _
    (by rwa [encryptBytes_length])

theorem read_decMemory_outside {s : State} {ndx x : Nat} (hndx : ndx ≤ s.nw.bytes)
    (h : Outside x s.dstAddr.toNat (decFull s + ndx)) : (decMemory s ndx).read x = s.mem.read x := by
  have hlast : ((decLast s).take ndx).length = ndx := List.length_take_of_le (by rwa [decLast, decryptBytes_length])
  exact read_transformBlocks_writeBytes_outside (decryptBytes_length s.cipher) _ _ _ _ _ (by rwa [hlast])

/-! ### ENC -/

theorem encLength_eq_pad_length {s : State} (hnw : s.nw ≠ .unset) :
    encLength s = (pad s.nw.bytes (sourceBytes s)).length := by
  rw [pad_length (bytes_pos hnw), sourceBytes_length, encLength]

/-- What ENC leaves in DST_LEN: the output fits DST_CAP, so its length is below 2^64. -/
theorem toNat_ofNat_encLength {s : State} (h : EncReady s) : (BitVec.ofNat 64 (encLength s)).toNat = encLength s := by
  obtain ⟨-, -, -, hroom, -⟩ := h
  rw [BitVec.toNat_ofNat]
  exact Nat.mod_eq_of_lt (Nat.lt_of_le_of_lt hroom s.dstCap.isLt)

/-- Settles O39: the ready state makes ENC run, and its memory is known inside its output and outside it. -/
theorem encWritesThePaddedCiphertext : Obligations.EncWritesThePaddedCiphertext := by
  unfold Obligations.EncWritesThePaddedCiphertext
  intro s hnw hm h
  have hlen : (finishBytes (encMemory s) (encLength s) s).dstLen.toNat = encLength s := toNat_ofNat_encLength h
  refine ⟨_, exec_enc_of_ready h, rfl, ?_, ?_, fun x hx => read_encMemory_outside s hx⟩
  · rw [hlen, encLength_eq_pad_length hnw]
  · rw [hlen]
    exact readBytes_encMemory hnw hm.1 h

/-! ### DEC -/

theorem decFull_eq {s : State} (h : DecReady s) : decFull s = s.srcLen.toNat - s.nw.bytes :=
  Nat.eq_sub_of_add_eq (decFull_add_bytes h)

/-- The block DEC scans is the last block of the whole plaintext. -/
theorem decLast_eq_lastBlock {s : State} (hnw : s.nw ≠ .unset) (h : DecReady s) :
    decLast s = (decryptedBytes s).drop (s.srcLen.toNat - s.nw.bytes) := by
  rw [decLast_eq_drop_decryptedBytes hnw h, decFull_eq h]

theorem decLast_length (s : State) : (decLast s).length = s.nw.bytes := decryptBytes_length _ _

/-- What DEC leaves in DST_LEN: fewer bytes than the source has. -/
theorem toNat_ofNat_decLength {s : State} (h : DecReady s) {ndx : Nat} (hndx : ndx ≤ s.nw.bytes) :
    (BitVec.ofNat 64 (decFull s + ndx)).toNat = decFull s + ndx := by
  have hfull := decFull_add_bytes h
  have hsrc := s.srcLen.isLt
  rw [BitVec.toNat_ofNat, Nat.mod_eq_of_lt (by omega)]

/-- Settles O40: the scan of the plaintext's last block is the scan DEC makes, and the memory DEC leaves is known inside
its output and outside it. -/
theorem decWritesThePlaintext : Obligations.DecWritesThePlaintext := by
  unfold Obligations.DecWritesThePlaintext
  intro s ndx hnw hm h hscan
  rw [← decLast_eq_lastBlock hnw h] at hscan
  have hndx : ndx ≤ s.nw.bytes := (terminatorScan_some (decLast_length s) hscan).1.le
  have hlen : (finishBytes (decMemory s ndx) (decFull s + ndx) s).dstLen.toNat = decFull s + ndx :=
    toNat_ofNat_decLength h hndx
  refine ⟨_, exec_dec_of_scan h hscan, rfl, ?_, ?_, fun x hx => read_decMemory_outside hndx ?_⟩
  · rw [hlen, decFull_eq h]
  · rw [hlen]
    exact readBytes_decMemory hnw hm.1 h hndx
  · rwa [decFull_eq h]

theorem exec_dec_of_noTerminator {s : State} (h : DecReady s)
    (hscan : terminatorScan s.nw.bytes (decLast s) = none) :
    exec .dec s = .next (failDecode s.dstAddr.toNat (decFull s) s) := by
  obtain ⟨hcheck, hdevice⟩ := (decReady_iff s).mp h
  simp [exec, execDec, hcheck, hdevice, hscan]

theorem read_failDecode_outside {s : State} {a n x : Nat} (h : Outside x a n) :
    (failDecode a n s).mem.read x = s.mem.read x :=
  read_writeBytes_outside _ (by rwa [freeBytes_length])

/-- Settles O41: the free bytes stand in the place of the blocks before the last. -/
theorem decWithoutTerminatorFails : Obligations.DecWithoutTerminatorFails := by
  unfold Obligations.DecWithoutTerminatorFails
  intro s hnw _ h hscan
  rw [← decLast_eq_lastBlock hnw h] at hscan
  refine ⟨_, exec_dec_of_noTerminator h hscan, rfl, fun x hx => read_failDecode_outside ?_⟩
  rwa [decFull_eq h]

end Sys2Proof.Machine
end

section
/-! Host accesses: one equation for each kind of access, the register map, and what a read, a write, a byte access and
reset do (R11 to R23, R34, R35, R48, R140). -/

namespace Sys2Proof.Machine

/-! ### Equations of a host access -/

theorem hostAccess_regRead {s : State} {addr : Addr} {width : AccessWidth} {r : HostReg}
    (h : registerAt s.cfg addr width = some r) :
    hostAccess (.regRead addr width) s = .next (logRead (readReg r s) s) := by
  simp only [hostAccess, h]

theorem hostAccess_regWrite {s : State} {addr : Addr} {width : AccessWidth} {r : HostReg} (v : Word)
    (h : registerAt s.cfg addr width = some r) : hostAccess (.regWrite addr width v) s = hostWrite r v s := by
  simp only [hostAccess, h]

theorem hostAccess_regRead_refused {s : State} {addr : Addr} {width : AccessWidth}
    (h : registerAt s.cfg addr width = none) : hostAccess (.regRead addr width) s = .refused .registerAccess := by
  simp only [hostAccess, h]

theorem hostAccess_regWrite_refused {s : State} {addr : Addr} {width : AccessWidth} (v : Word)
    (h : registerAt s.cfg addr width = none) :
    hostAccess (.regWrite addr width v) s = .refused .registerAccess := by
  simp only [hostAccess, h]

theorem hostAccess_memStore {s : State} {a : Addr} (b : Byte) (h : touchesDevice s.cfg a.toNat 1 = false) :
    hostAccess (.memStore a b) s = .next (storeByte a b s) := by
  simp [hostAccess, h]

theorem hostAccess_memLoad {s : State} {a : Addr} (h : touchesDevice s.cfg a.toNat 1 = false) :
    hostAccess (.memLoad a) s = .next (logRead ((s.mem.read a.toNat).zeroExtend 64) s) := by
  simp [hostAccess, h]

theorem hostAccess_memStore_refused {s : State} {a : Addr} (b : Byte) (h : touchesDevice s.cfg a.toNat 1 = true) :
    hostAccess (.memStore a b) s = .refused .hostDeviceAccess := by
  simp [hostAccess, h]

theorem hostAccess_memLoad_refused {s : State} {a : Addr} (h : touchesDevice s.cfg a.toNat 1 = true) :
    hostAccess (.memLoad a) s = .refused .hostDeviceAccess := by
  simp [hostAccess, h]

theorem hostWrite_of_ne_cmd {r : HostReg} (h : r ≠ .cmd) (v : Word) (s : State) :
    hostWrite r v s = .next (writeReg r v s) := if_neg h

/-! ### The register map -/

/-- An offset of the register block reaches its register, whatever CORE_BASE is. -/
theorem registerAt_offset (c : CoreConfig) {off : Nat} (hlt : off < 4096) (hmul : off % 8 = 0) :
    registerAt c (c.coreBase + BitVec.ofNat 64 off) .b64 = some (hostReg off) := by
  have hoff : (c.coreBase + BitVec.ofNat 64 off - c.coreBase).toNat = off := by
    rw [BitVec.add_comm, BitVec.add_sub_cancel, BitVec.toNat_ofNat, Nat.mod_eq_of_lt (by omega)]
  simp only [registerAt, hoff]
  exact if_pos ⟨trivial, hlt, hmul⟩

/-- The place R11 gives a register access. -/
def AccessInPlace (c : CoreConfig) (addr : Addr) (width : AccessWidth) : Prop :=
  width = .b64 ∧ ∃ k, k < 512 ∧ addr = c.coreBase + BitVec.ofNat 64 (8 * k)

theorem exists_registerAt_of_inPlace {c : CoreConfig} {addr : Addr} {width : AccessWidth}
    (h : AccessInPlace c addr width) : ∃ r, registerAt c addr width = some r := by
  obtain ⟨rfl, k, hk, rfl⟩ := h
  exact ⟨_, registerAt_offset c (by omega) (by omega)⟩

theorem registerAt_of_misplaced {c : CoreConfig} {addr : Addr} {width : AccessWidth}
    (h : ¬AccessInPlace c addr width) : registerAt c addr width = none := by
  refine if_neg fun ⟨hwidth, hlt, hmul⟩ => h ⟨hwidth, (addr - c.coreBase).toNat / 8, by omega, ?_⟩
  rw [Nat.mul_div_cancel' (Nat.dvd_of_mod_eq_zero hmul), BitVec.ofNat_toNat, BitVec.setWidth_eq, BitVec.add_comm,
    BitVec.sub_add_cancel]

theorem hostReg_keyIn (i : Fin 16) : hostReg (0x040 + 8 * i.val) = .keyIn i := by revert i; decide

theorem hostReg_tweakIn (i : Fin 2) : hostReg (0x0C0 + 8 * i.val) = .tweakIn i := by revert i; decide

theorem hostReg_blkIn (i : Fin 16) : hostReg (0x100 + 8 * i.val) = .blkIn i := by revert i; decide

theorem hostReg_blkOut (i : Fin 16) : hostReg (0x180 + 8 * i.val) = .blkOut i := by revert i; decide

/-- The reserved offsets lie in none of the ranges the map names before them. -/
theorem hostReg_reserved {off : Nat} (h : off = 0x038 ∨ (0x0D0 ≤ off ∧ off ≤ 0x0F8) ∨ 0x200 ≤ off) :
    hostReg off = .reserved := by
  unfold hostReg
  iterate 7 rw [if_neg (by omega)]
  iterate 4 rw [dif_neg (by omega)]

/-- Settles O9: the address arithmetic once for every offset, and the map range by range. -/
theorem registerMapPlacesEveryRegister : Obligations.RegisterMapPlacesEveryRegister := by
  unfold Obligations.RegisterMapPlacesEveryRegister
  intro c
  exact ⟨fun _ hlt hmul => registerAt_offset c hlt hmul, rfl, rfl, rfl, rfl, rfl, rfl, rfl, hostReg_keyIn,
    hostReg_tweakIn, hostReg_blkIn, hostReg_blkOut, fun _ h => hostReg_reserved h⟩

/-! ### What is refused -/

/-- A command is refused for one reason: ENC or DEC with a buffer that is not ordinary memory. -/
theorem exec_refused {i : Instr} {s : State} {q : Refusal} (h : exec i s = .refused q) :
    isBytesCommand i = true ∧ regionsTouchDevice s = true ∧ q = .bufferInDevice := by
  cases i with
  | config bits => rcases execConfig_cases bits s with ⟨-, hs⟩ | ⟨_, -, hs⟩ <;> cases hs.symm.trans h
  | configr bits rounds =>
    rcases execConfigr_cases bits rounds s with ⟨-, hs⟩ | ⟨_, -, -, hs⟩ | ⟨_, -, -, hs⟩ <;> cases hs.symm.trans h
  | init keylen =>
    rcases execInit_cases keylen s with ⟨-, hs⟩ | ⟨-, -, hs⟩ | ⟨-, -, -, hs⟩ <;> cases hs.symm.trans h
  | encb => rcases blockCommand_cases blockEncrypt s with ⟨-, hs⟩ | ⟨-, hs⟩ <;> cases hs.symm.trans h
  | decb => rcases blockCommand_cases blockDecrypt s with ⟨-, hs⟩ | ⟨-, hs⟩ <;> cases hs.symm.trans h
  | enc =>
    rcases execEnc_cases s with ⟨_, -, hs⟩ | ⟨-, hdevice, hs⟩ | ⟨-, -, hs⟩ <;> cases hs.symm.trans h
    exact ⟨rfl, hdevice, rfl⟩
  | dec =>
    rcases execDec_cases s with ⟨_, -, hs⟩ | ⟨-, hdevice, hs⟩ | ⟨-, -, -, hs⟩ | ⟨_, -, -, -, hs⟩ <;>
      cases hs.symm.trans h
    exact ⟨rfl, hdevice, rfl⟩

theorem exec_completes {i : Instr} {s : State} (h : isBytesCommand i = false ∨ regionsTouchDevice s = false) :
    ∃ t, exec i s = .next t := by
  cases hexec : exec i s with
  | next t => exact ⟨t, rfl⟩
  | fault r => cases r
  | refused q =>
    obtain ⟨hbytes, hdevice, -⟩ := exec_refused hexec
    simp [hbytes, hdevice] at h

theorem hostWrite_ne_registerAccess (r : HostReg) (v : Word) (s : State) :
    hostWrite r v s ≠ .refused .registerAccess := by
  intro h
  unfold hostWrite at h
  split at h
  · rcases runCommand_cases v s with ⟨i, -, hrun⟩ | ⟨_, -, hrun⟩
    · obtain ⟨-, -, hq⟩ := exec_refused (hrun.symm.trans h)
      cases hq
    · cases hrun.symm.trans h
  · cases h

/-! ### Register reads and writes -/

theorem readReg_queued (r : HostReg) (s : State) (rest : List HostOp) :
    readReg r { s with hostOps := rest } = readReg r s := by
  cases r <;> rfl

theorem step_regRead {s : State} {addr : Addr} {width : AccessWidth} {r : HostReg} (rest : List HostOp)
    (h : registerAt s.cfg addr width = some r) :
    step { s with hostOps := .regRead addr width :: rest } =
      .next { s with hostOps := rest, reads := s.reads ++ [readReg r s] } := by
  rw [step_queued, hostAccess_regRead (s := { s with hostOps := rest }) h, readReg_queued]
  rfl

theorem step_regWrite {s : State} {addr : Addr} {width : AccessWidth} {r : HostReg} (v : Word) (rest : List HostOp)
    (h : registerAt s.cfg addr width = some r) :
    step { s with hostOps := .regWrite addr width v :: rest } = hostWrite r v { s with hostOps := rest } :=
  hostAccess_regWrite (s := { s with hostOps := rest }) v h

/-- Settles O10: an access out of place reaches no register, one in place reaches one, and no register access refuses
itself. -/
theorem misplacedRegisterAccessIsRefused : Obligations.MisplacedRegisterAccessIsRefused := by
  unfold Obligations.MisplacedRegisterAccessIsRefused
  intro s rest addr width v
  constructor
  · intro h
    have hnone : registerAt s.cfg addr width = none := registerAt_of_misplaced h
    exact ⟨hostAccess_regWrite_refused (s := { s with hostOps := rest }) v hnone,
      hostAccess_regRead_refused (s := { s with hostOps := rest }) hnone⟩
  · intro h
    obtain ⟨r, hr⟩ := exists_registerAt_of_inPlace h
    rw [step_regWrite v rest hr]
    exact ⟨hostWrite_ne_registerAccess r v _, _, step_regRead rest hr⟩

/-- Settles O11: the value is the one `readReg` gives the register reached. -/
theorem hostReadReturnsRegister : Obligations.HostReadReturnsRegister := by
  unfold Obligations.HostReadReturnsRegister
  intro s rest addr r hr
  refine ⟨readReg r s, step_regRead rest hr, ?_⟩
  cases r <;> simp [readReg]

theorem readReg_writeReg_same {r : HostReg} (h : r ≠ .cmd) (v : Word) (s : State) :
    readReg r (writeReg r v s) = if r.writable then v else readReg r s := by
  cases r with
  | cmd => exact absurd rfl h
  | keyIn i | tweakIn i | blkIn i => simp [readReg, writeReg, HostReg.writable]
  | status | srcAddr | srcLen | dstAddr | dstCap | dstLen | blkOut i | reserved => rfl

/-- The staging registers as a write leaves them: the one written holds the value, the others stay. -/
theorem writeReg_staging (r : HostReg) (v : Word) (s : State) :
    (writeReg r v s).srcAddr = (if r = .srcAddr then v else s.srcAddr) ∧
    (writeReg r v s).srcLen = (if r = .srcLen then v else s.srcLen) ∧
    (writeReg r v s).dstAddr = (if r = .dstAddr then v else s.dstAddr) ∧
    (writeReg r v s).dstCap = (if r = .dstCap then v else s.dstCap) ∧
    (∀ i : Fin 16, (writeReg r v s).keyIn[i] = if r = .keyIn i then v else s.keyIn[i]) ∧
    (∀ i : Fin 2, (writeReg r v s).tweakIn[i] = if r = .tweakIn i then v else s.tweakIn[i]) ∧
    (∀ i : Fin 16, (writeReg r v s).blkIn[i] = if r = .blkIn i then v else s.blkIn[i]) := by
  cases r <;> simp [writeReg, Vector.getElem_set, Fin.ext_iff]

/-- STATUS shows no staging register. -/
theorem statusWord_writeReg (r : HostReg) (v : Word) (s : State) : statusWord (writeReg r v s) = statusWord s := by
  simp [statusWord]

theorem readReg_writeReg_other {r q : HostReg} (h : q ≠ r) (v : Word) (s : State) :
    readReg q (writeReg r v s) = readReg q s := by
  obtain ⟨hsa, hsl, hda, hdc, hkey, htweak, hblk⟩ := writeReg_staging r v s
  cases q with
  | cmd | reserved => rfl
  | status => exact statusWord_writeReg r v s
  | srcAddr => exact hsa.trans (if_neg h.symm)
  | srcLen => exact hsl.trans (if_neg h.symm)
  | dstAddr => exact hda.trans (if_neg h.symm)
  | dstCap => exact hdc.trans (if_neg h.symm)
  | dstLen => exact writeReg_dstLen r v s
  | keyIn i => exact (hkey i).trans (if_neg h.symm)
  | tweakIn i => exact (htweak i).trans (if_neg h.symm)
  | blkIn i => exact (hblk i).trans (if_neg h.symm)
  | blkOut i => simp [readReg]

/-- A register write changes staging registers only. -/
theorem writeReg_frame (r : HostReg) (v : Word) (s : State) :
    writeReg r v s = { s with
      srcAddr := (writeReg r v s).srcAddr, srcLen := (writeReg r v s).srcLen, dstAddr := (writeReg r v s).dstAddr,
      dstCap := (writeReg r v s).dstCap, keyIn := (writeReg r v s).keyIn, tweakIn := (writeReg r v s).tweakIn,
      blkIn := (writeReg r v s).blkIn } := by
  cases r <;> rfl

/-- Settles O12: the next state is the register write's, on the state with the access taken off the queue. -/
theorem hostWriteStoresOnlyItsRegister : Obligations.HostWriteStoresOnlyItsRegister := by
  unfold Obligations.HostWriteStoresOnlyItsRegister
  intro s rest addr v r hr hcmd
  refine ⟨writeReg r v { s with hostOps := rest }, ?_, ?_, fun q hq => ?_, writeReg_frame r v _, writeReg_staging r v _⟩
  · rw [step_regWrite v rest hr, hostWrite_of_ne_cmd hcmd]
  · rw [readReg_writeReg_same hcmd, readReg_queued]
  · rw [readReg_writeReg_other hq, readReg_queued]

/-- Settles O13: each of these offsets reaches `reserved`, which reads 0 and stores nothing. -/
theorem reservedOffsetsReadZeroIgnoreWrites : Obligations.ReservedOffsetsReadZeroIgnoreWrites := by
  unfold Obligations.ReservedOffsetsReadZeroIgnoreWrites
  intro s rest off v hmul hoff
  have hreg : registerAt s.cfg (s.cfg.coreBase + BitVec.ofNat 64 off) .b64 = some .reserved := by
    rw [registerAt_offset s.cfg (by omega) hmul, hostReg_reserved (by omega)]
  exact ⟨step_regRead rest hreg, step_regWrite v rest hreg⟩

/-! ### REG[STATUS] -/

theorem bitWord_getLsbD (b : Bool) (i : Nat) : (bitWord b).getLsbD i = (decide (i = 0) && b) := by
  cases b
  · simp [bitWord]
  · cases i <;> simp [bitWord]

/-- A one-bit field shifted to place p. -/
theorem shifted_bit_eq (b : Bool) (i p : Nat) :
    (!decide (i < p) && (decide (i - p = 0) && b)) = (decide (i = p) && b) := by
  by_cases h : i = p
  · simp [h]
  · have hout : i < p ∨ i - p ≠ 0 := by omega
    rcases hout with hlt | hne
    · simp [h, hlt]
    · simp [h, hne]

/-- Bit i of REG[STATUS], as the five fields of R15 shifted to their places. -/
theorem statusWord_getLsbD (s : State) {i : Nat} (hi : i < 64) :
    (statusWord s).getLsbD i =
      (s.err.getLsbD i || (decide (i = 4) && s.cfgValid) || (decide (i = 5) && s.keyValid) ||
        (!decide (i < 8) && s.nw.words.testBit (i - 8)) || (!decide (i < 32) && s.nr.getLsbD (i - 32))) := by
  have h8 : i - 8 < 64 := by omega
  have h32 : i - 32 < 64 := by omega
  simp only [statusWord, BitVec.truncate_eq_setWidth, BitVec.getLsbD_or, BitVec.getLsbD_shiftLeft,
    BitVec.getLsbD_setWidth, bitWord_getLsbD, BitVec.getLsbD_ofNat, hi, h8, h32, decide_true, Bool.true_and,
    shifted_bit_eq]

/-- NW is at most 16, so it fits the five low bits of its field. -/
theorem words_testBit_of_ge (w : BlockWidth) {j : Nat} (h : 5 ≤ j) : w.words.testBit j = false := by
  have hw := w.words_le
  exact Nat.testBit_lt_two_pow (Nat.lt_of_lt_of_le (m := 2 ^ 5) (by omega) (Nat.pow_le_pow_right (by decide) h))

theorem statusWord_field_err (s : State) : (statusWord s).extractLsb' 0 4 = s.err := by
  refine BitVec.eq_of_getLsbD_eq fun i hi => ?_
  have h4 : i ≠ 4 := by omega
  have h5 : i ≠ 5 := by omega
  have h8 : i < 8 := by omega
  have h32 : i < 32 := by omega
  simp [statusWord_getLsbD s (show i < 64 by omega), hi, h4, h5, h8, h32]

theorem statusWord_bit_cfgValid (s : State) : (statusWord s).getLsbD 4 = s.cfgValid := by
  rw [statusWord_getLsbD s (by decide)]
  simp

theorem statusWord_bit_keyValid (s : State) : (statusWord s).getLsbD 5 = s.keyValid := by
  rw [statusWord_getLsbD s (by decide)]
  simp

/-- Above the two flags only NW and NR have bits. -/
theorem statusWord_getLsbD_high (s : State) {i : Nat} (hlo : 6 ≤ i) (hhi : i < 64) :
    (statusWord s).getLsbD i =
      ((!decide (i < 8) && s.nw.words.testBit (i - 8)) || (!decide (i < 32) && s.nr.getLsbD (i - 32))) := by
  have h4 : i ≠ 4 := by omega
  have h5 : i ≠ 5 := by omega
  have herr : s.err.getLsbD i = false := s.err.getLsbD_of_ge i (by omega)
  simp [statusWord_getLsbD s hhi, h4, h5, herr]

theorem statusWord_bits_6_7 (s : State) : (statusWord s).extractLsb' 6 2 = 0 := by
  refine BitVec.eq_of_getLsbD_eq fun i hi => ?_
  have h8 : 6 + i < 8 := by omega
  have h32 : 6 + i < 32 := by omega
  simp [statusWord_getLsbD_high s (show 6 ≤ 6 + i by omega) (by omega), h8, h32]

theorem statusWord_field_nw (s : State) : ((statusWord s).extractLsb' 8 8).toNat = s.nw.words := by
  have hfield : (statusWord s).extractLsb' 8 8 = BitVec.ofNat 8 s.nw.words := by
    refine BitVec.eq_of_getLsbD_eq fun i hi => ?_
    have h32 : 8 + i < 32 := by omega
    rw [BitVec.getLsbD_ofNat]
    simp [statusWord_getLsbD_high s (show 6 ≤ 8 + i by omega) (by omega), hi, h32]
  have hw := s.nw.words_le
  rw [hfield, BitVec.toNat_ofNat, Nat.mod_eq_of_lt (by omega)]

theorem statusWord_bits_16_31 (s : State) : (statusWord s).extractLsb' 16 16 = 0 := by
  refine BitVec.eq_of_getLsbD_eq fun i hi => ?_
  have h32 : 16 + i < 32 := by omega
  have hnw := words_testBit_of_ge s.nw (show 5 ≤ 16 + i - 8 by omega)
  simp [statusWord_getLsbD_high s (show 6 ≤ 16 + i by omega) (by omega), h32, hnw]

theorem statusWord_field_nr (s : State) : (statusWord s).extractLsb' 32 32 = s.nr := by
  refine BitVec.eq_of_getLsbD_eq fun i hi => ?_
  have hnw := words_testBit_of_ge s.nw (show 5 ≤ 32 + i - 8 by omega)
  simp [statusWord_getLsbD_high s (show 6 ≤ 32 + i by omega) (by omega), hi, hnw]

/-- Settles O14: the register at offset 8 is STATUS, whose word holds the five fields side by side. -/
theorem statusMirrorsInternalState : Obligations.StatusMirrorsInternalState := by
  unfold Obligations.StatusMirrorsInternalState
  intro s rest v
  have hreg : registerAt s.cfg (s.cfg.coreBase + 8) .b64 = some .status :=
    registerAt_offset s.cfg (off := 8) (by decide) (by decide)
  exact ⟨step_regRead rest hreg, step_regWrite v rest hreg, statusWord_field_err s, statusWord_bit_cfgValid s,
    statusWord_bit_keyValid s, statusWord_bits_6_7 s, statusWord_field_nw s, statusWord_bits_16_31 s,
    statusWord_field_nr s, by decide⟩

/-! ### Reset and host memory -/

theorem reset_vectors : (∀ i : Fin 16, State.reset.keyIn[i] = 0) ∧ (∀ i : Fin 2, State.reset.tweakIn[i] = 0) ∧
    (∀ i : Fin 16, State.reset.blkIn[i] = 0) ∧ ∀ i : Fin 16, State.reset.blkOut[i] = 0 := by decide

theorem statusWord_resetCore (s : State) : statusWord (resetCore s) = 0 := by
  simp [statusWord, State.reset, bitWord, BlockWidth.words]

/-- Settles O15: reset puts State.reset's value into every field but those of the platform and the host. -/
theorem resetGivesTheResetValues : Obligations.ResetGivesTheResetValues := by
  unfold Obligations.ResetGivesTheResetValues
  intro s rest
  obtain ⟨hkey, htweak, hin, hout⟩ := reset_vectors
  refine ⟨resetCore { s with hostOps := rest }, rfl, rfl, rfl, rfl, ?_⟩
  rintro u (rfl | rfl)
  · exact ⟨rfl, rfl, rfl, rfl, rfl, rfl, rfl, rfl, rfl, rfl, hkey, htweak, hin, hout, statusWord_resetCore _⟩
  · exact ⟨rfl, rfl, rfl, rfl, rfl, rfl, rfl, rfl, rfl, rfl, hkey, htweak, hin, hout, by decide⟩

/-- Settles O16, from the laws of a memory in canonical form. -/
theorem hostMemoryHoldsStoredByte : Obligations.HostMemoryHoldsStoredByte := by
  unfold Obligations.HostMemoryHoldsStoredByte
  intro s rest a b hm hordinary
  exact ⟨hostAccess_memLoad (s := { s with hostOps := rest }) hordinary, _,
    hostAccess_memStore (s := { s with hostOps := rest }) b hordinary, rfl, Memory.read_write_same hm.1 a.toNat b,
    fun x hx => Memory.read_write_other s.mem b hx⟩

end Sys2Proof.Machine
end

section
/-! What the host cannot observe: the rings while no key is loaded, and the key-ring words above the parity word
(R27, R34, U1). A transform reads the key ring through its sub-keys alone, and those reach no word above the parity word. -/

namespace Sys2Proof.Machine

/-! ### The key-ring words a transform reads -/

/-- Two key rings agree on the words up to the parity word, for the width w. -/
def AgreeToParity (w : BlockWidth) (k k' : Vector Word 17) : Prop := ∀ i (h : i < 17), i ≤ w.words → k'[i] = k[i]

/-- The ring index of a sub-key word is taken modulo n + 1. -/
theorem subKey_of_agree {w : BlockWidth} (c : CipherContext w) {k : Vector Word 17}
    (h : AgreeToParity w c.keyRing k) (s : Nat) : subKey { c with keyRing := k } s = subKey c s := by
  refine Vector.ext fun i hi => ?_
  have hle : (s + i) % (w.words + 1) ≤ w.words := Nat.le_of_lt_succ (Nat.mod_lt _ (Nat.succ_pos _))
  have hk : (s + i) % (w.words + 1) < 17 := Nat.lt_succ_of_le (hle.trans w.words_le)
  rw [subKey_getElem _ s hi hk, subKey_getElem _ s hi hk, h _ hk hle]
  rfl

theorem encryptRounds_of_agree {w : BlockWidth} (c : CipherContext w) {k : Vector Word 17}
    (h : AgreeToParity w c.keyRing k) (n : Nat) (v : Block w) :
    encryptRounds { c with keyRing := k } n v = encryptRounds c n v := by
  induction n with
  | zero => rfl
  | succ n ih =>
    rw [encryptRounds, encryptRounds, ih, encryptRound, subKey_of_agree c h]
    rfl

theorem decryptRounds_of_agree {w : BlockWidth} (c : CipherContext w) {k : Vector Word 17}
    (h : AgreeToParity w c.keyRing k) (n : Nat) (v : Block w) :
    decryptRounds { c with keyRing := k } n v = decryptRounds c n v := by
  induction n generalizing v with
  | zero => rfl
  | succ n ih =>
    rw [decryptRounds, decryptRounds, ih, decryptRound, subKey_of_agree c h]
    rfl

theorem blockEncrypt_of_agree {w : BlockWidth} (c : CipherContext w) {k : Vector Word 17}
    (h : AgreeToParity w c.keyRing k) : blockEncrypt { c with keyRing := k } = blockEncrypt c := by
  funext p
  rw [blockEncrypt, encryptRounds_of_agree c h, subKey_of_agree c h, blockEncrypt]

theorem blockDecrypt_of_agree {w : BlockWidth} (c : CipherContext w) {k : Vector Word 17}
    (h : AgreeToParity w c.keyRing k) : blockDecrypt { c with keyRing := k } = blockDecrypt c := by
  funext x
  rw [blockDecrypt, decryptRounds_of_agree c h, subKey_of_agree c h, blockDecrypt]

/-- INIT writes every word up to the parity word, whatever the ring held. -/
theorem keyRingOf_agree {w : BlockWidth} (key : Block w) (old old' : Vector Word 17) :
    AgreeToParity w (keyRingOf key old) (keyRingOf key old') := by
  intro i h17 hi
  rcases Nat.lt_or_eq_of_le hi with hlt | rfl
  · rw [keyRingOf_getElem_key key _ hlt, keyRingOf_getElem_key key _ hlt]
  · rw [keyRingOf_getElem_parity, keyRingOf_getElem_parity]

/-! ### States that differ in their rings -/

/-- The state with other rings. -/
def withRings (s : State) (k : Vector Word 17) (r : Vector Word 3) : State := { s with keyRing := k, tweakRing := r }

/-- The host cannot tell these rings from those of the state. -/
def RingsUnseen (s : State) (k : Vector Word 17) (r : Vector Word 3) : Prop :=
  s.keyValid = true → r = s.tweakRing ∧ AgreeToParity s.nw s.keyRing k

theorem sameToHost_withRings {s : State} {k : Vector Word 17} {r : Vector Word 3} (h : RingsUnseen s k r) :
    SameToHost s (withRings s k r) := ⟨rfl, h⟩

theorem eq_withRings_of_sameToHost {s t : State} (h : SameToHost s t) :
    t = withRings s t.keyRing t.tweakRing ∧ RingsUnseen s t.keyRing t.tweakRing := h

/-- An update that keeps the rings, the width and an absent key keeps them unseen. -/
theorem RingsUnseen.of_frame {s u : State} {k : Vector Word 17} {r : Vector Word 3} (h : RingsUnseen s k r)
    (hkey : u.keyValid = s.keyValid) (hnw : u.nw = s.nw) (hk : u.keyRing = s.keyRing)
    (hr : u.tweakRing = s.tweakRing) : RingsUnseen u k r := by
  rw [RingsUnseen, hkey, hnw, hk, hr]
  exact h

theorem RingsUnseen.of_noKey {u : State} (h : u.keyValid = false) (k : Vector Word 17) (r : Vector Word 3) :
    RingsUnseen u k r := fun hkey => by simp [h] at hkey

/-- The outcomes of two states that differ in unseen rings are related when the second is the first with the rings
replaced. -/
theorem outcomesRelated_next {u : State} {k : Vector Word 17} {r : Vector Word 3} (h : RingsUnseen u k r) :
    OutcomesRelated SameToHost (.next u) (.next (withRings u k r)) := sameToHost_withRings h

section
variable {s : State} {k : Vector Word 17} {r : Vector Word 3} (h : RingsUnseen s k r)
include h

theorem cipher_withRings (hkey : s.keyValid = true) :
    (withRings s k r).cipher = { s.cipher with keyRing := k } ∧ AgreeToParity s.nw s.cipher.keyRing k := by
  obtain ⟨rfl, hagree⟩ := h hkey
  exact ⟨rfl, hagree⟩

theorem blockEncrypt_withRings (hkey : s.keyValid = true) :
    blockEncrypt (withRings s k r).cipher = blockEncrypt s.cipher := by
  obtain ⟨hcipher, hagree⟩ := cipher_withRings h hkey
  rw [hcipher]
  exact blockEncrypt_of_agree s.cipher hagree

theorem blockDecrypt_withRings (hkey : s.keyValid = true) :
    blockDecrypt (withRings s k r).cipher = blockDecrypt s.cipher := by
  obtain ⟨hcipher, hagree⟩ := cipher_withRings h hkey
  rw [hcipher]
  exact blockDecrypt_of_agree s.cipher hagree

theorem encryptBytes_withRings (hkey : s.keyValid = true) :
    encryptBytes (withRings s k r).cipher = encryptBytes s.cipher := by
  funext b
  rw [encryptBytes, blockEncrypt_withRings h hkey]
  rfl

theorem decryptBytes_withRings (hkey : s.keyValid = true) :
    decryptBytes (withRings s k r).cipher = decryptBytes s.cipher := by
  funext b
  rw [decryptBytes, blockDecrypt_withRings h hkey]
  rfl

theorem encMemory_withRings (hkey : s.keyValid = true) : encMemory (withRings s k r) = encMemory s := by
  rw [encMemory, encryptBytes_withRings h hkey]
  rfl

theorem decFullMemory_withRings (hkey : s.keyValid = true) :
    decFullMemory (withRings s k r) = decFullMemory s := by
  rw [decFullMemory, decryptBytes_withRings h hkey]
  rfl

theorem decLast_withRings (hkey : s.keyValid = true) : decLast (withRings s k r) = decLast s := by
  rw [decLast, decFullMemory_withRings h hkey, decryptBytes_withRings h hkey]
  rfl

theorem decMemory_withRings (hkey : s.keyValid = true) (ndx : Nat) :
    decMemory (withRings s k r) ndx = decMemory s ndx := by
  rw [decMemory, decFullMemory_withRings h hkey, decLast_withRings h hkey]
  rfl

/-! ### Commands -/

theorem raiseError_related (b : Bool) (e : ErrorCode) :
    OutcomesRelated SameToHost (.next (raiseError b e s)) (.next (raiseError b e (withRings s k r))) :=
  outcomesRelated_next (h.of_frame rfl rfl rfl rfl)

theorem finishBytes_related (m : Memory) (n : Nat) :
    OutcomesRelated SameToHost (.next (finishBytes m n s)) (.next (finishBytes m n (withRings s k r))) :=
  outcomesRelated_next (h.of_frame rfl rfl rfl rfl)

theorem putBlock_related (o : Vector Word 16) :
    OutcomesRelated SameToHost (.next (putBlock o s)) (.next (putBlock o (withRings s k r))) :=
  outcomesRelated_next (h.of_frame rfl rfl rfl rfl)

omit h in
/-- CONFIG and CONFIGR drop the key, so any rings are unseen after them. -/
theorem applyConfig_related (n : BlockWidth) (nr : BitVec 32) :
    OutcomesRelated SameToHost (.next (applyConfig n nr s)) (.next (applyConfig n nr (withRings s k r))) :=
  outcomesRelated_next (RingsUnseen.of_noKey rfl k r)

theorem execConfig_related (bits : Nat) :
    OutcomesRelated SameToHost (execConfig bits s) (execConfig bits (withRings s k r)) := by
  unfold execConfig
  cases BlockWidth.ofBits bits with
  | none => exact raiseError_related h _ _
  | some n => exact applyConfig_related n _

theorem execConfigr_related (bits : Nat) (rounds : Int) :
    OutcomesRelated SameToHost (execConfigr bits rounds s) (execConfigr bits rounds (withRings s k r)) := by
  cases hbits : BlockWidth.ofBits bits with
  | none =>
    rw [execConfigr_of_invalidBlockSize rounds s hbits, execConfigr_of_invalidBlockSize rounds _ hbits]
    exact raiseError_related h _ _
  | some n =>
    by_cases hr : rounds ≤ 0 ∨ rounds % 4 ≠ 0
    · rw [execConfigr_of_invalidRoundCount s hbits hr, execConfigr_of_invalidRoundCount _ hbits hr]
      exact raiseError_related h _ _
    · rw [execConfigr_of_valid s hbits hr, execConfigr_of_valid _ hbits hr]
      exact applyConfig_related n _

omit h in
theorem loadedKey_withRings : loadedKey (withRings s k r) =
    withRings (loadedKey s) (keyRingOf (firstWords s.nw s.keyIn) k) (loadedKey s).tweakRing := rfl

omit h in
/-- INIT overwrites every word that will be read. -/
theorem loadedKey_related :
    OutcomesRelated SameToHost (.next (loadedKey s)) (.next (loadedKey (withRings s k r))) := by
  rw [loadedKey_withRings]
  have hagree : AgreeToParity (loadedKey s).nw (loadedKey s).keyRing (keyRingOf (firstWords s.nw s.keyIn) k) :=
    keyRingOf_agree (firstWords s.nw s.keyIn) s.keyRing k
  exact outcomesRelated_next fun _ => ⟨rfl, hagree⟩

omit h in
/-- A key length INIT takes is the size of a block. -/
theorem ne_unset_of_keyLength {keylen : Nat} (hlen : keylen = 4 ∨ keylen = 8 ∨ keylen = 16)
    (hnw : keylen = s.nw.words) : s.nw ≠ .unset := by
  intro hunset
  simp [hnw, hunset, BlockWidth.words] at hlen

theorem execInit_related (keylen : Nat) :
    OutcomesRelated SameToHost (execInit keylen s) (execInit keylen (withRings s k r)) := by
  rcases execInit_cases keylen s with ⟨hc, hs⟩ | ⟨hc, hbad, hs⟩ | ⟨hc, hlen, hnw, hs⟩ <;> rw [hs]
  · rw [execInit_of_notConfigured keylen (s := withRings s k r) hc]
    exact raiseError_related h _ _
  · rw [execInit_of_invalidKeySize (s := withRings s k r) hc hbad]
    exact raiseError_related h _ _
  · rw [execInit_of_valid (s := withRings s k r) hc (ne_unset_of_keyLength hlen hnw) hnw]
    exact loadedKey_related

/-- A block command whose transform cannot tell the rings apart. -/
theorem blockCommand_related {f : {w : BlockWidth} → CipherContext w → Block w → Block w}
    (hf : s.keyValid = true → f (withRings s k r).cipher = f s.cipher) :
    OutcomesRelated SameToHost (blockCommand f s) (blockCommand f (withRings s k r)) := by
  rcases blockCommand_cases f s with ⟨hkey, hs⟩ | ⟨hkey, hs⟩ <;> rw [hs]
  · rw [(blockCommand_spec f (withRings s k r)).1 hkey]
    exact raiseError_related h false .notInitialized
  · rw [blockCommand_of_key f (s := withRings s k r) hkey, hf hkey]
    exact putBlock_related h _

theorem execEnc_related : OutcomesRelated SameToHost (exec .enc s) (exec .enc (withRings s k r)) := by
  cases hcheck : encCheck s with
  | some e =>
    rw [exec_enc_of_check hcheck, exec_enc_of_check (s := withRings s k r) hcheck]
    exact raiseError_related h true e
  | none =>
    cases hdevice : regionsTouchDevice s with
    | true =>
      rw [exec_enc_of_device hcheck hdevice, exec_enc_of_device (s := withRings s k r) hcheck hdevice]
      rfl
    | false =>
      have hready := (encReady_iff s).mpr ⟨hcheck, hdevice⟩
      rw [exec_enc_of_ready hready, exec_enc_of_ready (s := withRings s k r) hready, encMemory_withRings h hready.1]
      exact finishBytes_related h _ _

theorem execDec_related : OutcomesRelated SameToHost (exec .dec s) (exec .dec (withRings s k r)) := by
  cases hcheck : decCheck s with
  | some e =>
    rw [exec_dec_of_check hcheck, exec_dec_of_check (s := withRings s k r) hcheck]
    exact raiseError_related h true e
  | none =>
    cases hdevice : regionsTouchDevice s with
    | true =>
      rw [exec_dec_of_device hcheck hdevice, exec_dec_of_device (s := withRings s k r) hcheck hdevice]
      rfl
    | false =>
      have hready := (decReady_iff s).mpr ⟨hcheck, hdevice⟩
      have hlast := decLast_withRings h hready.1
      cases hscan : terminatorScan s.nw.bytes (decLast s) with
      | none =>
        rw [exec_dec_of_noTerminator hready hscan,
          exec_dec_of_noTerminator (s := withRings s k r) hready (by rwa [hlast])]
        exact outcomesRelated_next (h.of_frame rfl rfl rfl rfl)
      | some ndx =>
        rw [exec_dec_of_scan hready hscan, exec_dec_of_scan (s := withRings s k r) hready (by rwa [hlast]),
          decMemory_withRings h hready.1]
        exact finishBytes_related h _ _

theorem exec_related (i : Instr) : OutcomesRelated SameToHost (exec i s) (exec i (withRings s k r)) := by
  cases i with
  | config bits => exact execConfig_related h bits
  | configr bits rounds => exact execConfigr_related h bits rounds
  | init keylen => exact execInit_related h keylen
  | encb => exact blockCommand_related h (blockEncrypt_withRings h)
  | decb => exact blockCommand_related h (blockDecrypt_withRings h)
  | enc => exact execEnc_related h
  | dec => exact execDec_related h

theorem runCommand_related (v : Word) :
    OutcomesRelated SameToHost (runCommand v s) (runCommand v (withRings s k r)) := by
  cases hv : decode v with
  | instr i =>
    rw [runCommand_of_instr hv, runCommand_of_instr hv]
    exact exec_related h i
  | illegal why =>
    rw [runCommand_of_illegal hv, runCommand_of_illegal hv]
    exact raiseError_related h _ _

/-! ### Host accesses -/

theorem logRead_related (v : Word) :
    OutcomesRelated SameToHost (.next (logRead v s)) (.next (logRead v (withRings s k r))) :=
  outcomesRelated_next (h.of_frame rfl rfl rfl rfl)

omit h in
/-- No register shows a ring. -/
theorem readReg_withRings (q : HostReg) : readReg q (withRings s k r) = readReg q s := by
  cases q <;> rfl

omit h in
theorem writeReg_withRings (q : HostReg) (v : Word) :
    writeReg q v (withRings s k r) = withRings (writeReg q v s) k r := by
  cases q <;> rfl

theorem hostWrite_related (q : HostReg) (v : Word) :
    OutcomesRelated SameToHost (hostWrite q v s) (hostWrite q v (withRings s k r)) := by
  by_cases hq : q = .cmd
  · simp only [hostWrite, if_pos hq]
    exact runCommand_related h v
  · rw [hostWrite_of_ne_cmd hq, hostWrite_of_ne_cmd hq, writeReg_withRings]
    exact outcomesRelated_next (h.of_frame (by simp) (by simp) (by simp) (by simp))

/-- Which register an access reaches and which addresses are devices does not depend on the rings. -/
theorem hostAccess_related (op : HostOp) :
    OutcomesRelated SameToHost (hostAccess op s) (hostAccess op (withRings s k r)) := by
  cases op with
  | regWrite addr width v =>
    cases hreg : registerAt s.cfg addr width with
    | none =>
      rw [hostAccess_regWrite_refused v hreg, hostAccess_regWrite_refused (s := withRings s k r) v hreg]
      rfl
    | some q =>
      rw [hostAccess_regWrite v hreg, hostAccess_regWrite (s := withRings s k r) v hreg]
      exact hostWrite_related h q v
  | regRead addr width =>
    cases hreg : registerAt s.cfg addr width with
    | none =>
      rw [hostAccess_regRead_refused hreg, hostAccess_regRead_refused (s := withRings s k r) hreg]
      rfl
    | some q =>
      rw [hostAccess_regRead hreg, hostAccess_regRead (s := withRings s k r) hreg, readReg_withRings]
      exact logRead_related h _
  | memStore a b =>
    cases hdevice : touchesDevice s.cfg a.toNat 1 with
    | true =>
      rw [hostAccess_memStore_refused b hdevice, hostAccess_memStore_refused (s := withRings s k r) b hdevice]
      rfl
    | false =>
      rw [hostAccess_memStore b hdevice, hostAccess_memStore (s := withRings s k r) b hdevice]
      exact outcomesRelated_next (h.of_frame rfl rfl rfl rfl)
  | memLoad a =>
    cases hdevice : touchesDevice s.cfg a.toNat 1 with
    | true =>
      rw [hostAccess_memLoad_refused hdevice, hostAccess_memLoad_refused (s := withRings s k r) hdevice]
      rfl
    | false =>
      rw [hostAccess_memLoad hdevice, hostAccess_memLoad (s := withRings s k r) hdevice]
      exact logRead_related h _
  | reset => exact ⟨rfl, fun _ => ⟨rfl, fun _ _ _ => rfl⟩⟩

theorem step_related : OutcomesRelated SameToHost (step s) (step (withRings s k r)) := by
  cases hops : s.hostOps with
  | nil =>
    rw [step_nil hops, step_nil (s := withRings s k r) hops]
    exact outcomesRelated_next h
  | cons op rest =>
    rw [step_cons hops, step_cons (s := withRings s k r) hops]
    exact hostAccess_related (s := { s with hostOps := rest }) (h.of_frame rfl rfl rfl rfl) op

end

/-- Settles O48: the second state is the first with rings the host cannot tell from its own, and every step keeps them
so. -/
theorem unloadedKeyCannotBeObserved : Obligations.UnloadedKeyCannotBeObserved := by
  unfold Obligations.UnloadedKeyCannotBeObserved
  intro s t h
  obtain ⟨ht, hunseen⟩ := eq_withRings_of_sameToHost h
  rw [ht]
  exact step_related hunseen

end Sys2Proof.Machine
end

section
/-! The invariant of every reachable state, update by update, and so step by step (R24, R25, R65, R66, U7). -/

namespace Sys2Proof.Machine

/-- What the invariant says besides memory and st.err. -/
def CoreInv (s : State) : Prop := ConfigLegal s.cfg ∧ ConfigurationConsistent s ∧ KeyConsistent s

theorem inv_iff (s : State) : s.Inv ↔ CoreInv s ∧ s.mem.wf ∧ s.err.toNat ≤ 11 := by
  constructor
  · rintro ⟨hcfg, hmem, hconf, hkey, herr⟩
    exact ⟨⟨hcfg, hconf, hkey⟩, hmem, herr⟩
  · rintro ⟨⟨hcfg, hconf, hkey⟩, hmem, herr⟩
    exact ⟨hcfg, hmem, hconf, hkey, herr⟩

/-- Only these seven fields matter to the configuration and the key. -/
theorem CoreInv.of_frame {s t : State} (h : CoreInv s) (hcfg : t.cfg = s.cfg) (hcv : t.cfgValid = s.cfgValid)
    (hnw : t.nw = s.nw) (hnr : t.nr = s.nr) (hkv : t.keyValid = s.keyValid) (hk : t.keyRing = s.keyRing)
    (hr : t.tweakRing = s.tweakRing) : CoreInv t := by
  simp only [CoreInv, ConfigurationConsistent, KeyConsistent, hcfg, hcv, hnw, hnr, hkv, hk, hr]
  exact h

theorem errorBits_le (e : ErrorCode) : (errorBits e).toNat ≤ 11 := by
  cases e <;> decide

/-! ### One lemma per update -/

theorem raiseError_inv {s : State} (h : s.Inv) (b : Bool) (e : ErrorCode) : (raiseError b e s).Inv := by
  obtain ⟨hcore, hmem, -⟩ := (inv_iff s).mp h
  exact (inv_iff _).mpr ⟨hcore.of_frame rfl rfl rfl rfl rfl rfl rfl, hmem, errorBits_le e⟩

/-- A legal round count: a positive multiple of 4 below 2^31 (R24, R61). -/
abbrev RoundsLegal (r : BitVec 32) : Prop := 0 < r.toNat ∧ r.toNat % 4 = 0 ∧ r.toNat < 2 ^ 31

theorem applyConfig_inv {s : State} (h : s.Inv) {n : BlockWidth} {r : BitVec 32} (hn : n ≠ .unset)
    (hr : RoundsLegal r) : (applyConfig n r s).Inv := by
  obtain ⟨⟨hcfg, -, -⟩, hmem, -⟩ := (inv_iff s).mp h
  refine (inv_iff _).mpr ⟨⟨hcfg, ⟨fun _ => ⟨hn, hr⟩, fun hc => ?_⟩, fun hkey => ?_⟩, hmem, by simp⟩
  · simp at hc
  · simp at hkey

/-- The parity word of the loaded ring is that of the key words, which are the ring's own first words (R64, R66). -/
theorem loadedKey_keyConsistent {s : State} (hc : s.cfgValid = true) : KeyConsistent (loadedKey s) := by
  refine fun _ => ⟨hc, ?_, rfl⟩
  have hkeys : (loadedKey s).keyRing.toList.take s.nw.words = s.keyIn.toList.take s.nw.words := by
    have hw := s.nw.words_le
    refine List.ext_getElem (by simp; omega) fun i h1 _ => ?_
    have hi : i < s.nw.words := by simp at h1; omega
    simpa using loadedKey_keyRing_key s hi (by omega)
  have hparity := loadedKey_keyRing_parity s (Nat.lt_succ_of_le s.nw.words_le)
  rw [← hkeys] at hparity
  exact hparity

theorem loadedKey_inv {s : State} (h : s.Inv) (hc : s.cfgValid = true) : (loadedKey s).Inv := by
  obtain ⟨⟨hcfg, hconf, -⟩, hmem, -⟩ := (inv_iff s).mp h
  exact (inv_iff _).mpr ⟨⟨hcfg, hconf, loadedKey_keyConsistent hc⟩, hmem, by simp [loadedKey]⟩

theorem putBlock_inv {s : State} (h : s.Inv) (o : Vector Word 16) : (putBlock o s).Inv := by
  obtain ⟨hcore, hmem, -⟩ := (inv_iff s).mp h
  exact (inv_iff _).mpr ⟨hcore.of_frame rfl rfl rfl rfl rfl rfl rfl, hmem, by simp⟩

theorem finishBytes_inv {s : State} (h : s.Inv) {m : Memory} (hm : m.wf) (n : Nat) : (finishBytes m n s).Inv := by
  obtain ⟨hcore, -, -⟩ := (inv_iff s).mp h
  exact (inv_iff _).mpr ⟨hcore.of_frame rfl rfl rfl rfl rfl rfl rfl, hm, by simp⟩

theorem failDecode_inv {s : State} (h : s.Inv) {a n : Nat} (hfit : a + n ≤ 2 ^ 64) : (failDecode a n s).Inv := by
  obtain ⟨hcore, hmem, -⟩ := (inv_iff s).mp h
  exact (inv_iff _).mpr ⟨hcore.of_frame rfl rfl rfl rfl rfl rfl rfl,
    writeBytes_wf hmem (by rwa [freeBytes_length]), by simp⟩

theorem storeByte_inv {s : State} (h : s.Inv) (a : Addr) (b : Byte) : (storeByte a b s).Inv := by
  obtain ⟨hcore, hmem, herr⟩ := (inv_iff s).mp h
  exact (inv_iff _).mpr ⟨hcore.of_frame rfl rfl rfl rfl rfl rfl rfl, Memory.write_wf hmem a.isLt b, herr⟩

theorem logRead_inv {s : State} (h : s.Inv) (v : Word) : (logRead v s).Inv := by
  obtain ⟨hcore, hmem, herr⟩ := (inv_iff s).mp h
  exact (inv_iff _).mpr ⟨hcore.of_frame rfl rfl rfl rfl rfl rfl rfl, hmem, herr⟩

theorem writeReg_inv {s : State} (h : s.Inv) (r : HostReg) (v : Word) : (writeReg r v s).Inv := by
  obtain ⟨hcore, hmem, herr⟩ := (inv_iff s).mp h
  exact (inv_iff _).mpr ⟨hcore.of_frame (by simp) (by simp) (by simp) (by simp) (by simp) (by simp) (by simp),
    by simpa using hmem, by simpa using herr⟩

/-- The reset values meet what the invariant says of the configuration and the key, and memory stays. -/
theorem resetCore_inv {s : State} (h : s.Inv) : (resetCore s).Inv := by
  obtain ⟨⟨hcfg, -, -⟩, hmem, -⟩ := (inv_iff s).mp h
  refine (inv_iff _).mpr ⟨⟨hcfg, ⟨fun hc => ?_, fun _ => ⟨rfl, rfl⟩⟩, fun hkey => ?_⟩, hmem, Nat.zero_le _⟩
  · simp [State.reset] at hc
  · simp [State.reset] at hkey

/-- Settles O49: every part of the invariant is a finite check of the one reset state. -/
theorem resetMeetsTheInvariant : Obligations.ResetMeetsTheInvariant := by
  unfold Obligations.ResetMeetsTheInvariant
  decide

/-! ### Commands -/

theorem roundsLegal_default {n : BlockWidth} (h : n ≠ .unset) : RoundsLegal n.defaultRounds := by
  cases n with
  | unset => exact absurd rfl h
  | words4 | words8 | words16 => decide

theorem roundsLegal_ofInt {rounds : Int} (hhi : rounds < 2 ^ 31) (h : ¬(rounds ≤ 0 ∨ rounds % 4 ≠ 0)) :
    RoundsLegal (BitVec.ofInt 32 rounds) := by
  have hval := toNat_ofInt_of_pos (rounds := rounds) (by omega) hhi
  exact ⟨by omega, by omega, by omega⟩

theorem ne_unset_of_ofBits {bits : Nat} {n : BlockWidth} (h : BlockWidth.ofBits bits = some n) : n ≠ .unset := by
  rcases ofBits_eq_some h with ⟨-, rfl⟩ | ⟨-, rfl⟩ | ⟨-, rfl⟩ <;> decide

theorem encMemory_wf {s : State} (hm : s.mem.wf) (h : EncReady s) : (encMemory s).wf := by
  obtain ⟨-, -, hdst, hroom, -⟩ := h
  rw [Nat.add_one_mul] at hroom
  exact writeBytes_wf (transformBlocks_wf (encryptBytes_length s.cipher) _ _ _ hm (by omega))
    (by rw [encryptBytes_length]; omega)

theorem decMemory_wf {s : State} (hm : s.mem.wf) (h : DecReady s) {ndx : Nat}
    (hndx : ndx < s.nw.bytes) : (decMemory s ndx).wf := by
  have hfull := decFull_add_bytes h
  obtain ⟨-, -, -, -, hdst, hroom, -⟩ := h
  refine writeBytes_wf (transformBlocks_wf (decryptBytes_length s.cipher) _ _ _ hm ?_) ?_
  · change s.dstAddr.toNat + decFull s ≤ 2 ^ 64
    omega
  · rw [List.length_take]
    omega

/-- A key is loaded only while a block size is in force (R24, R25). -/
theorem ne_unset_of_key {s : State} (h : s.Inv) (hkey : s.keyValid = true) : s.nw ≠ .unset := by
  obtain ⟨⟨-, ⟨hconf, -⟩, hk⟩, -, -⟩ := (inv_iff s).mp h
  exact (hconf (hk hkey).1).1

theorem execEnc_inv {s t : State} (h : s.Inv) (hexec : exec .enc s = .next t) : t.Inv := by
  rcases execEnc_cases s with ⟨e, -, hs⟩ | ⟨-, -, hs⟩ | ⟨hcheck, hdevice, hs⟩ <;> cases hs.symm.trans hexec
  · exact raiseError_inv h true e
  · obtain ⟨-, hmem, -⟩ := (inv_iff s).mp h
    exact finishBytes_inv h (encMemory_wf hmem ((encReady_iff s).mpr ⟨hcheck, hdevice⟩)) _

theorem execDec_inv {s t : State} (h : s.Inv) (hexec : exec .dec s = .next t) : t.Inv := by
  rcases execDec_cases s with ⟨e, -, hs⟩ | ⟨-, -, hs⟩ | ⟨hcheck, hdevice, -, hs⟩ | ⟨ndx, hcheck, hdevice, hscan, hs⟩ <;>
    cases hs.symm.trans hexec
  · exact raiseError_inv h true e
  all_goals
    have hready := (decReady_iff s).mpr ⟨hcheck, hdevice⟩
    have hnw := ne_unset_of_key h hready.1
  · have hcap := decFull_le_dstCap hnw hready
    obtain ⟨-, -, -, -, hdst, -⟩ := hready
    exact failDecode_inv h (by omega)
  · obtain ⟨-, hmem, -⟩ := (inv_iff s).mp h
    exact finishBytes_inv h (decMemory_wf hmem hready (terminatorScan_some (decLast_length s) hscan).1) _

theorem blockCommand_inv {f : {w : BlockWidth} → CipherContext w → Block w → Block w} {s t : State} (h : s.Inv)
    (hexec : blockCommand f s = .next t) : t.Inv := by
  rcases blockCommand_cases f s with ⟨-, hs⟩ | ⟨-, hs⟩ <;> cases hs.symm.trans hexec
  · exact raiseError_inv h false _
  · exact putBlock_inv h _

/-- The round count of a command that can be written down is a signed 32-bit value, so st.nr holds it. -/
theorem exec_inv {i : Instr} (hi : i.WellFormed) {s t : State} (h : s.Inv) (hexec : exec i s = .next t) : t.Inv := by
  cases i with
  | config bits =>
    rcases execConfig_cases bits s with ⟨-, hs⟩ | ⟨n, hn, hs⟩ <;> cases hs.symm.trans hexec
    · exact raiseError_inv h _ _
    · have hset := ne_unset_of_ofBits hn
      exact applyConfig_inv h hset (roundsLegal_default hset)
  | configr bits rounds =>
    rcases execConfigr_cases bits rounds s with ⟨-, hs⟩ | ⟨-, -, -, hs⟩ | ⟨n, hn, hr, hs⟩ <;> cases hs.symm.trans hexec
    · exact raiseError_inv h _ _
    · exact raiseError_inv h _ _
    · obtain ⟨-, -, hhi⟩ := wellFormed_configr.mp hi
      exact applyConfig_inv h (ne_unset_of_ofBits hn) (roundsLegal_ofInt hhi hr)
  | init keylen =>
    rcases execInit_cases keylen s with ⟨-, hs⟩ | ⟨-, -, hs⟩ | ⟨hc, -, -, hs⟩ <;> cases hs.symm.trans hexec
    · exact raiseError_inv h _ _
    · exact raiseError_inv h _ _
    · exact loadedKey_inv h hc
  | encb | decb => exact blockCommand_inv h hexec
  | enc => exact execEnc_inv h hexec
  | dec => exact execDec_inv h hexec

theorem runCommand_inv {v : Word} {s t : State} (h : s.Inv) (hrun : runCommand v s = .next t) : t.Inv := by
  rcases runCommand_cases v s with ⟨i, hv, hs⟩ | ⟨why, -, hs⟩
  · exact exec_inv (wellFormed_of_decode hv) h (hs.symm.trans hrun)
  · cases hs.symm.trans hrun
    exact raiseError_inv h _ _

theorem hostAccess_inv {op : HostOp} {s t : State} (h : s.Inv) (hop : hostAccess op s = .next t) : t.Inv := by
  rcases hostAccess_next hop with ⟨_, _, v, -, -, hrun⟩ | ⟨_, _, v, r, -, -, -, rfl⟩ | ⟨v, rfl⟩ | ⟨a, b, -, -, rfl⟩ |
    ⟨-, rfl⟩
  · exact runCommand_inv h hrun
  · exact writeReg_inv h r v
  · exact logRead_inv h v
  · exact storeByte_inv h a b
  · exact resetCore_inv h

/-- Settles O50: taking an access off the queue touches nothing the invariant speaks of, and no access breaks it. -/
theorem stepKeepsTheInvariant : Obligations.StepKeepsTheInvariant := by
  unfold Obligations.StepKeepsTheInvariant
  intro s t h hstep
  cases hops : s.hostOps with
  | nil =>
    cases (step_nil hops).symm.trans hstep
    exact h
  | cons op rest => exact hostAccess_inv (s := { s with hostOps := rest }) h ((step_cons hops).symm.trans hstep)

end Sys2Proof.Machine
end

section
/-! What holds of every command at once: what it leaves unchanged, what it does not depend on, and that it completes
(R16, R18 to R25, R36, R66, R134). -/

namespace Sys2Proof.Machine

/-! ### What a command leaves unchanged -/

/-- Settles O44: none of the state updates a command can make touches these fields. -/
theorem noCommandWritesStagingRegisters : Obligations.NoCommandWritesStagingRegisters := by
  unfold Obligations.NoCommandWritesStagingRegisters
  intro i s t hexec
  rcases exec_next hexec with ⟨b, e, rfl, -⟩ | ⟨-, n, r, rfl⟩ | ⟨-, rfl⟩ | ⟨-, o, rfl⟩ |
    ⟨-, ⟨m, n, rfl⟩ | ⟨a, n, rfl⟩⟩ <;>
    exact ⟨rfl, rfl, rfl, rfl, rfl, rfl, rfl, rfl, rfl, rfl⟩

/-- Settles O45: of the fields a state update touches, those of its own kind of command are left out. -/
theorem everyResultHasItsOwnWriters : Obligations.EveryResultHasItsOwnWriters := by
  unfold Obligations.EveryResultHasItsOwnWriters
  intro i s t hexec
  rcases exec_next hexec with ⟨b, e, rfl, hb⟩ | ⟨hkind, n, r, rfl⟩ | ⟨hkind, rfl⟩ | ⟨hkind, o, rfl⟩ |
    ⟨hkind, ⟨m, n, rfl⟩ | ⟨a, n, rfl⟩⟩
  · have hbytes (h : isBytesCommand i = false) : b = false := by simpa [h] using hb
    exact ⟨fun _ => ⟨rfl, rfl, rfl⟩, fun _ => ⟨rfl, rfl⟩, fun _ _ => rfl, fun _ => rfl,
      fun h => ⟨by simp [hbytes h], rfl, rfl⟩⟩
  · simp [hkind]
  · simp [hkind, loadedKey]
  · simp [hkind]
  · simp [hkind]
  · simp [hkind]

/-! ### What a command does not depend on -/

/-- Settles O46: no check, transform or state update reads st.err, and each update writes it. -/
theorem errIsNotSticky : Obligations.ErrIsNotSticky := by
  unfold Obligations.ErrIsNotSticky
  intro i s e
  cases i with
  | config | configr | init | encb | decb | enc | dec => rfl

/-- The state with other host memory. -/
def withMemory (s : State) (m : Memory) : State := { s with mem := m }

/-- The command completes, leaves memory as it was, and with other memory ends the same, memory apart. -/
def IgnoresMemory (i : Instr) (s : State) (m : Memory) : Prop :=
  ∃ t, exec i s = .next t ∧ t.mem = s.mem ∧ exec i (withMemory s m) = .next (withMemory t m)

theorem execConfig_ignoresMemory (bits : Nat) (s : State) (m : Memory) : IgnoresMemory (.config bits) s m := by
  cases hbits : BlockWidth.ofBits bits with
  | none => exact ⟨raiseError false .invalidBlockSize s, by simp [exec, execConfig, hbits], rfl,
      by simp only [exec, execConfig, hbits]; rfl⟩
  | some n => exact ⟨applyConfig n n.defaultRounds s, by simp [exec, execConfig, hbits], rfl,
      by simp only [exec, execConfig, hbits]; rfl⟩

theorem execConfigr_ignoresMemory (bits : Nat) (rounds : Int) (s : State) (m : Memory) :
    IgnoresMemory (.configr bits rounds) s m := by
  rcases execConfigr_cases bits rounds s with ⟨hbits, hs⟩ | ⟨n, hbits, hr, hs⟩ | ⟨n, hbits, hr, hs⟩
  · exact ⟨_, hs, rfl, execConfigr_of_invalidBlockSize rounds (withMemory s m) hbits⟩
  · exact ⟨_, hs, rfl, execConfigr_of_invalidRoundCount (withMemory s m) hbits hr⟩
  · exact ⟨_, hs, rfl, execConfigr_of_valid (withMemory s m) hbits hr⟩

theorem execInit_ignoresMemory (keylen : Nat) (s : State) (m : Memory) : IgnoresMemory (.init keylen) s m := by
  rcases execInit_cases keylen s with ⟨hc, hs⟩ | ⟨hc, hbad, hs⟩ | ⟨hc, hlen, hnw, hs⟩
  · exact ⟨_, hs, rfl, execInit_of_notConfigured keylen (s := withMemory s m) hc⟩
  · exact ⟨_, hs, rfl, execInit_of_invalidKeySize (s := withMemory s m) hc hbad⟩
  · exact ⟨_, hs, rfl, execInit_of_valid (s := withMemory s m) hc (ne_unset_of_keyLength hlen hnw) hnw⟩

theorem blockCommand_ignoresMemory (f : {w : BlockWidth} → CipherContext w → Block w → Block w) (s : State)
    (m : Memory) : ∃ t, blockCommand f s = .next t ∧ t.mem = s.mem ∧
      blockCommand f (withMemory s m) = .next (withMemory t m) := by
  rcases blockCommand_cases f s with ⟨hkey, hs⟩ | ⟨hkey, hs⟩
  · exact ⟨_, hs, rfl, (blockCommand_spec f (withMemory s m)).1 hkey⟩
  · exact ⟨_, hs, rfl, blockCommand_of_key f (s := withMemory s m) hkey⟩

/-- Settles O47, command by command. -/
theorem onlyByteCommandsAccessMemory : Obligations.OnlyByteCommandsAccessMemory := by
  unfold Obligations.OnlyByteCommandsAccessMemory
  intro i s m hi
  cases i with
  | config bits => exact execConfig_ignoresMemory bits s m
  | configr bits rounds => exact execConfigr_ignoresMemory bits rounds s m
  | init keylen => exact execInit_ignoresMemory keylen s m
  | encb => exact blockCommand_ignoresMemory blockEncrypt s m
  | decb => exact blockCommand_ignoresMemory blockDecrypt s m
  | enc | dec => simp [isBytesCommand] at hi

/-! ### Completion -/

/-- Settles O51: a legal word's command completes on ordinary memory and an illegal one raises an error; neither writes
the queue. -/
theorem everyCommandWordCompletes : Obligations.EveryCommandWordCompletes := by
  unfold Obligations.EveryCommandWordCompletes
  intro v s rest hordinary
  rw [step_command]
  rcases runCommand_cases v { s with hostOps := rest } with ⟨i, -, hrun⟩ | ⟨why, -, hrun⟩ <;> rw [hrun]
  · obtain ⟨t, hexec⟩ := exec_completes (i := i) (s := { s with hostOps := rest }) (.inr hordinary)
    obtain ⟨-, -, -, -, -, -, -, -, hqueue, -⟩ := noCommandWritesStagingRegisters i _ t hexec
    exact ⟨t, hexec, hqueue⟩
  · exact ⟨_, rfl, rfl⟩

end Sys2Proof.Machine
end

section
/-! ENC and DEC read host memory in the source region alone: from two memories that agree there they write the same
bytes to the same addresses (R36, R104, R110). -/

namespace Sys2Proof.Machine

/-! ### Two memories -/

theorem read_eq_of_readBytes_eq {m m' : Memory} {a n x : Nat} (h : readBytes m a n = readBytes m' a n)
    (hlo : a ≤ x) (hhi : x < a + n) : m.read x = m'.read x := by
  obtain ⟨k, rfl⟩ := Nat.exists_eq_add_of_le hlo
  have hk : k < n := by omega
  have hbyte (m : Memory) : (readBytes m a n)[k]? = some (m.read (a + k)) := by
    rw [List.getElem?_eq_getElem (by simpa using hk), readBytes_getElem]
  simpa only [hbyte, Option.some.injEq] using congrArg (·[k]?) h

/-- Each byte of memory is equal in the second state and the first, or is in both as it was before. -/
def SameBytesWritten (m m' n n' : Memory) : Prop :=
  ∀ x, n'.read x = n.read x ∨ (n'.read x = m'.read x ∧ n.read x = m.read x)

/-- Two memories into which the same string is written at the same place, and nothing else. -/
theorem sameBytesWritten_of_region {m m' n n' : Memory} {a k : Nat} (hin : readBytes n' a k = readBytes n a k)
    (hout : ∀ x, Outside x a k → n.read x = m.read x) (hout' : ∀ x, Outside x a k → n'.read x = m'.read x) :
    SameBytesWritten m m' n n' := by
  intro x
  by_cases hx : Outside x a k
  · exact .inr ⟨hout' x hx, hout x hx⟩
  · exact .inl (read_eq_of_readBytes_eq hin (by omega) (by omega))

theorem sameBytesWritten_writeBytes {m m' : Memory} (hm : m.sorted) (hm' : m'.sorted) (a : Nat) (b : List Byte) :
    SameBytesWritten m m' (writeBytes m a b) (writeBytes m' a b) :=
  sameBytesWritten_of_region (by rw [readBytes_writeBytes hm, readBytes_writeBytes hm'])
    (fun _ hx => read_writeBytes_outside m hx) (fun _ hx => read_writeBytes_outside m' hx)

/-! ### ENC and DEC from two memories -/

section
variable {s : State} {m : Memory} (hnw : s.nw ≠ .unset) (hs : s.mem.sorted) (hm : m.sorted)
  (hsource : sourceBytes (withMemory s m) = sourceBytes s)
include hnw hs hm hsource

theorem encMemory_sameBytesWritten (h : EncReady s) :
    SameBytesWritten s.mem m (encMemory s) (encMemory (withMemory s m)) := by
  have hin := readBytes_encMemory (s := withMemory s m) hnw hm h
  rw [hsource] at hin
  exact sameBytesWritten_of_region (hin.trans (readBytes_encMemory hnw hs h).symm)
    (fun _ hx => read_encMemory_outside s hx) (fun _ hx => read_encMemory_outside (withMemory s m) hx)

omit hs hm in
theorem decLast_withMemory (h : DecReady s) : decLast (withMemory s m) = decLast s := by
  rw [decLast_eq (s := withMemory s m) hnw h, hsource]
  exact (decLast_eq hnw h).symm

theorem decMemory_sameBytesWritten (h : DecReady s) {ndx : Nat} (hndx : ndx ≤ s.nw.bytes) :
    SameBytesWritten s.mem m (decMemory s ndx) (decMemory (withMemory s m) ndx) := by
  have hin := readBytes_decMemory (s := withMemory s m) hnw hm h hndx
  rw [decryptedBytes, hsource] at hin
  exact sameBytesWritten_of_region (hin.trans (readBytes_decMemory hnw hs h hndx).symm)
    (fun _ hx => read_decMemory_outside hndx hx) (fun _ hx => read_decMemory_outside (s := withMemory s m) hndx hx)

theorem exec_enc_withMemory {t : State} (hexec : exec .enc s = .next t) :
    ∃ u, exec .enc (withMemory s m) = .next u ∧ u = { t with mem := u.mem } ∧
      SameBytesWritten s.mem m t.mem u.mem := by
  rcases execEnc_cases s with ⟨e, hcheck, hrun⟩ | ⟨-, -, hrun⟩ | ⟨hcheck, hdevice, hrun⟩ <;>
    cases hrun.symm.trans hexec
  · exact ⟨_, exec_enc_of_check (s := withMemory s m) hcheck, rfl, fun _ => .inr ⟨rfl, rfl⟩⟩
  · have hready := (encReady_iff s).mpr ⟨hcheck, hdevice⟩
    exact ⟨_, exec_enc_of_ready (s := withMemory s m) hready, rfl,
      encMemory_sameBytesWritten hnw hs hm hsource hready⟩

theorem exec_dec_withMemory {t : State} (hexec : exec .dec s = .next t) :
    ∃ u, exec .dec (withMemory s m) = .next u ∧ u = { t with mem := u.mem } ∧
      SameBytesWritten s.mem m t.mem u.mem := by
  rcases execDec_cases s with ⟨e, hcheck, hrun⟩ | ⟨-, -, hrun⟩ | ⟨hcheck, hdevice, hscan, hrun⟩ |
    ⟨ndx, hcheck, hdevice, hscan, hrun⟩ <;> cases hrun.symm.trans hexec
  · exact ⟨_, exec_dec_of_check (s := withMemory s m) hcheck, rfl, fun _ => .inr ⟨rfl, rfl⟩⟩
  all_goals
    have hready := (decReady_iff s).mpr ⟨hcheck, hdevice⟩
    have hscan' := hscan
    rw [← decLast_withMemory hnw hsource hready] at hscan'
  · exact ⟨_, exec_dec_of_noTerminator (s := withMemory s m) hready hscan', rfl, sameBytesWritten_writeBytes hs hm _ _⟩
  · have hndx := (terminatorScan_some (decLast_length s) hscan).1.le
    exact ⟨_, exec_dec_of_scan (s := withMemory s m) hready hscan', rfl,
      decMemory_sameBytesWritten hnw hs hm hsource hready hndx⟩

end

/-- Settles O42: the message read is the same from both memories, and with it the bytes written. -/
theorem byteCommandsReadOnlyTheSource : Obligations.ByteCommandsReadOnlyTheSource := by
  unfold Obligations.ByteCommandsReadOnlyTheSource
  intro i s t m hi hnw hs hm hagree hexec
  have hsource : sourceBytes (withMemory s m) = sourceBytes s := readBytes_congr hagree
  cases i with
  | enc => exact exec_enc_withMemory hnw hs.1 hm.1 hsource hexec
  | dec => exact exec_dec_withMemory hnw hs.1 hm.1 hsource hexec
  | config | configr | init | encb | decb => simp [isBytesCommand] at hi

end Sys2Proof.Machine
end

section
/-! The cipher's parameters: rotations bit by bit, and the layouts SUBKEY_LAYOUT can be given (R6, R84). -/

namespace Sys2Proof.Machine

/-! ### Rotations -/

/-- Bit (i + r) mod 64 stands r above bit i, or 64 - r below it. -/
theorem rotated_index {i r : Nat} (hi : i < 64) (hr : r < 64) :
    (i + r < 64 ∧ (i + r) % 64 = i + r) ∨ (64 ≤ i + r ∧ (i + r) % 64 = i + r - 64) := by
  omega

theorem rotl64_getLsbD (x : Word) {r i : Nat} (hr : r < 64) (hi : i < 64) :
    (rotl64 x r).getLsbD ((i + r) % 64) = x.getLsbD i := by
  rw [rotl64_eq_rotateLeft x hr, BitVec.getLsbD_rotateLeft, Nat.mod_eq_of_lt hr]
  rcases rotated_index hi hr with ⟨hlt, hmod⟩ | ⟨hge, hmod⟩ <;> rw [hmod]
  · have hup : ¬i + r < r := by omega
    simp [hup, hlt]
  · have hdown : i + r - 64 < r := by omega
    have hback : 64 - r + (i + r - 64) = i := by omega
    simp [hdown, hback]

theorem rotr64_getLsbD (x : Word) {r i : Nat} (hr : r < 64) (hi : i < 64) :
    (rotr64 x r).getLsbD i = x.getLsbD ((i + r) % 64) := by
  rw [rotr64_eq_rotateRight x hr, BitVec.getLsbD_rotateRight, Nat.mod_eq_of_lt hr]
  rcases rotated_index hi hr with ⟨hlt, hmod⟩ | ⟨hge, hmod⟩ <;> rw [hmod]
  · have hup : i < 64 - r := by omega
    simp [hup, Nat.add_comm]
  · have hdown : ¬i < 64 - r := by omega
    have hback : i - (64 - r) = i + r - 64 := by omega
    simp [hdown, hback, hi]

/-- Settles O24, from the two rotations of Lean's bit vectors. -/
theorem rotationMovesEveryBit : Obligations.RotationMovesEveryBit := by
  unfold Obligations.RotationMovesEveryBit
  exact fun x _ _ hr hi => ⟨rotl64_getLsbD x hr hi, rotr64_getLsbD x hr hi⟩

/-! ### Layouts -/

/-- A term where the place k is the one chosen for it, nothing elsewhere. -/
def termAt (place k : Fin 3) (t : SubkeyTerm) : List SubkeyTerm := if place = k then [t] else []

theorem sumTerms_termAt (place k : Fin 3) (t : SubkeyTerm) (ring : Vector Word 3) (s : Nat) :
    sumTerms (termAt place k t) ring s = if place = k then subkeyTerm t ring s else 0 := by
  unfold termAt
  split <;> simp

/-- The tweak term whose index at sub-key s is `f s`, for the sub-keys below `N`. -/
def tweakBy (f : Nat → Fin 3) (N : Nat) : SubkeyTerm := .tweak ((List.range N).map f)

theorem subkeyTerm_tweakBy (f : Nat → Fin 3) (ring : Vector Word 3) {N s : Nat} (h : s < N) :
    subkeyTerm (tweakBy f N) ring s = ring[f s] := by
  simp only [tweakBy, subkeyTerm_tweak, tweakIndex_map_range f h]

/-- The terms of the word n - 1 - k, where the two tweak words and the counter are placed at a, b and e. -/
def placedTerms (f g : Nat → Fin 3) (a b e : Fin 3) (N : Nat) (k : Fin 3) : List SubkeyTerm :=
  termAt a k (tweakBy f N) ++ termAt b k (tweakBy g N) ++ termAt e k .counter

def placedLayout (f g : Nat → Fin 3) (a b e : Fin 3) (N : Nat) : SubkeyLayout where
  atN3 := placedTerms f g a b e N 2
  atN2 := placedTerms f g a b e N 1
  atN1 := placedTerms f g a b e N 0

theorem sumTerms_placedTerms (f g : Nat → Fin 3) (a b e k : Fin 3) (ring : Vector Word 3) {N s : Nat} (h : s < N) :
    sumTerms (placedTerms f g a b e N k) ring s =
      (if a = k then ring[f s] else 0) + (if b = k then ring[g s] else 0)
        + (if e = k then BitVec.ofNat 64 s else 0) := by
  simp only [placedTerms, sumTerms_append, sumTerms_termAt, subkeyTerm_tweakBy _ _ h, subkeyTerm_counter]

/-- Word n - 1 - k of a sub-key receives the terms placed at k. -/
theorem subkeyAddend_placedLayout {f g : Nat → Fin 3} {a b e : Fin 3} {N : Nat} {w : BlockWidth} {c : CipherContext w}
    (hlayout : c.cfg.layout = placedLayout f g a b e N) (s : Nat) {i : Nat} {k : Fin 3}
    (hk : i + 1 + k.val = w.words) :
    subkeyAddend c s i = sumTerms (placedTerms f g a b e N k) c.tweakRing s := by
  match k with
  | 0 => rw [subkeyAddend_atN1 c s hk, hlayout, placedLayout]
  | 1 => rw [subkeyAddend_atN2 c s hk, hlayout, placedLayout]
  | 2 => rw [subkeyAddend_atN3 c s hk, hlayout, placedLayout]

/-- A place is a word's own exactly when their distances from the end agree. -/
theorem place_iff {n i : Nat} {k : Fin 3} (hk : i + 1 + k.val = n) (a : Fin 3) : i + 1 + a.val = n ↔ a = k := by
  rw [Fin.ext_iff]
  omega

/-- Settles O53: the tables hold a value for every sub-key a transform uses, and each of the last three words gets the
terms placed there. -/
theorem everyTweakLayoutCanBeConfigured : Obligations.EveryTweakLayoutCanBeConfigured := by
  unfold Obligations.EveryTweakLayoutCanBeConfigured
  intro f g a b e
  refine ⟨placedLayout f g a b e (2 ^ 29), fun w c s i hi hk hlayout hnr hs => ?_⟩
  have hN : s < 2 ^ 29 := by omega
  rw [subKey_getElem c s hi hk, BitVec.add_assoc, BitVec.add_assoc]
  congr 1
  by_cases hlast : ∃ k : Fin 3, i + 1 + k.val = w.words
  · obtain ⟨k, hplace⟩ := hlast
    rw [subkeyAddend_placedLayout hlayout s hplace, sumTerms_placedTerms f g a b e k _ hN, BitVec.add_assoc]
    simp only [place_iff hplace]
  · have hnone (p : Fin 3) : i + 1 + p.val ≠ w.words := fun h => hlast ⟨p, h⟩
    have hlow : i + 3 < w.words := by
      have h0 : i + 1 + 0 ≠ w.words := hnone 0
      have h1 : i + 1 + 1 ≠ w.words := hnone 1
      have h2 : i + 1 + 2 ≠ w.words := hnone 2
      omega
    rw [subkeyAddend_low c s hlow]
    simp [hnone]

end Sys2Proof.Machine
end
